-- ==== Sys2Proof/Word.lean ====
section
/-! DEFINITION. The plain types every other file uses: bytes, words and the byte matrices of
spec/00_scope.md R12, R13 and spec/42_key_schedule.md R172. -/

namespace Sys2Proof

/-- A byte: an unsigned 8-bit value (R12). -/
abbrev Byte := BitVec 8

/-- A 32-bit word: a command word (R71), the STATUS word (R31), a key-schedule word (R172). -/
abbrev Word := BitVec 32

/-- A 16-byte buffer `buf[0..15]` (R13). -/
abbrev Block := Vector Byte 16

/-- A 4×4 matrix of bytes `m[r][c]`, a vector of four rows (R13). -/
abbrev ByteMatrix := Vector (Vector Byte 4) 4

/-- Eleven matrices: the round-key store's and the snapshot buffer's shape (R25, R27). -/
abbrev MatrixStore := Vector ByteMatrix 11

end Sys2Proof
end

