-- ==== Sys2Proof/Syntax.lean ====
section
/-! DEFINITION. The syntax: the thirteen commands (spec/30_encoding.md R74, one constructor per row of
opcode_table.json) and the assembler's source lines (R81, R82). -/

namespace Sys2Proof

/-- A command with its operands, each operand as wide as its field (R71, R72). -/
inductive Instr where
  /-- `CLR`: return to the reset state (R200). -/
  | clr
  /-- `PT_PUSH d`: append a plaintext byte (R100). -/
  | ptPush (d : Byte)
  /-- `KEY_PUSH d`: append a key byte (R102). -/
  | keyPush (d : Byte)
  /-- `RUN`: encrypt, recording snapshots (R190). -/
  | run
  /-- `LDST`: load the working state (R104). -/
  | ldst
  /-- `EXPAND`: expand the key (R180). -/
  | expand
  /-- `SUB`: SubBytes on the working state (R140). -/
  | sub
  /-- `SHR`: ShiftRows on the working state (R145). -/
  | shr
  /-- `MIX`: MixColumns on the working state (R150). -/
  | mix
  /-- `ARK k`: add round key `k` (R155). -/
  | ark (k : BitVec 4)
  /-- `RD_STATE b`: read byte `b` of the working state (R108). -/
  | rdState (b : BitVec 4)
  /-- `RD_SNAP s, b`: read byte `b` of snapshot `s` (R111). -/
  | rdSnap (s b : BitVec 4)
  /-- `RD_RK k, b`: read byte `b` of round key `k` (R114). -/
  | rdRk (k b : BitVec 4)
  deriving DecidableEq, Repr

/-- The five operand forms (R73): which of the fields `A`, `B`, `D` an operand fills. -/
inductive OperandForm where
  | f0
  | fd
  | fa
  | fb
  | fab
  deriving DecidableEq, Repr

/-- One line of assembler source: a command (R81) or a pseudo-instruction (R82). Operands are numbers as
written; a hexadecimal string is its list of digit values, first digit first (R12). -/
inductive AsmLine where
  | clr
  | ptPush (d : Nat)
  | keyPush (d : Nat)
  | run
  | ldst
  | expand
  | sub
  | shr
  | mix
  | ark (k : Nat)
  | rdState (b : Nat)
  | rdSnap (s b : Nat)
  | rdRk (k b : Nat)
  /-- `PT_LOAD h`. -/
  | ptLoad (h : List Nat)
  /-- `KEY_LOAD h`. -/
  | keyLoad (h : List Nat)
  /-- `READ_STATE`. -/
  | readState
  /-- `READ_SNAP s`. -/
  | readSnap (s : Nat)
  /-- `READ_RK k`. -/
  | readRk (k : Nat)
  /-- `ENCRYPT p, key`. -/
  | encrypt (p key : List Nat)
  /-- `ROUND k`. -/
  | round (k : Nat)
  /-- `FINAL_ROUND`. -/
  | finalRound
  deriving DecidableEq, Repr

end Sys2Proof
end

