-- ==== Sys2Proof/Decode.lean ====
section
/-! DEFINITION. The command word's fields, the opcode map, the decoder and the encoder
(spec/30_encoding.md R71 to R79). A command word arrives whole on the port, so it has no byte order
(spec/20_memory.md R55, log entry 15). -/

namespace Sys2Proof

/-- `OPC = w[31:24]` (R71). -/
def fieldOpc (w : Word) : BitVec 8 := w.extractLsb' 24 8

/-- `RSV = w[23:16]` (R71). -/
def fieldRsv (w : Word) : BitVec 8 := w.extractLsb' 16 8

/-- `A = w[15:12]` (R71). -/
def fieldA (w : Word) : BitVec 4 := w.extractLsb' 12 4

/-- `B = w[11:8]` (R71). -/
def fieldB (w : Word) : BitVec 4 := w.extractLsb' 8 4

/-- `D = w[7:0]` (R71). -/
def fieldD (w : Word) : BitVec 8 := w.extractLsb' 0 8

/-- A row of the opcode map (R74). `build` makes the command from the fields `A`, `B`, `D` (R72). -/
structure OpcodeRow where
  mnemonic : String
  opc : BitVec 8
  form : OperandForm
  matchWord : Word
  mask : Word
  build : BitVec 4 → BitVec 4 → BitVec 8 → Instr

/-- The opcode map of R74, row by row. -/
def opcodeMap : List OpcodeRow :=
  [⟨"CLR", 0x01, .f0, 0x01000000, 0xffffffff, fun _ _ _ => .clr⟩,
   ⟨"PT_PUSH", 0x02, .fd, 0x02000000, 0xffffff00, fun _ _ d => .ptPush d⟩,
   ⟨"KEY_PUSH", 0x03, .fd, 0x03000000, 0xffffff00, fun _ _ d => .keyPush d⟩,
   ⟨"RUN", 0x10, .f0, 0x10000000, 0xffffffff, fun _ _ _ => .run⟩,
   ⟨"LDST", 0x20, .f0, 0x20000000, 0xffffffff, fun _ _ _ => .ldst⟩,
   ⟨"EXPAND", 0x21, .f0, 0x21000000, 0xffffffff, fun _ _ _ => .expand⟩,
   ⟨"SUB", 0x30, .f0, 0x30000000, 0xffffffff, fun _ _ _ => .sub⟩,
   ⟨"SHR", 0x31, .f0, 0x31000000, 0xffffffff, fun _ _ _ => .shr⟩,
   ⟨"MIX", 0x32, .f0, 0x32000000, 0xffffffff, fun _ _ _ => .mix⟩,
   ⟨"ARK", 0x33, .fa, 0x33000000, 0xffff0fff, fun a _ _ => .ark a⟩,
   ⟨"RD_STATE", 0x40, .fb, 0x40000000, 0xfffff0ff, fun _ b _ => .rdState b⟩,
   ⟨"RD_SNAP", 0x41, .fab, 0x41000000, 0xffff00ff, fun a b _ => .rdSnap a b⟩,
   ⟨"RD_RK", 0x42, .fab, 0x42000000, 0xffff00ff, fun a b _ => .rdRk a b⟩]

/-- "A word `w` is the command of a row exactly when `(w & mask) = match`" (R74). -/
def OpcodeRow.matchesWord (r : OpcodeRow) (w : Word) : Bool := (w &&& r.mask) == r.matchWord

/-- The bits of a word that R73 requires to be 0 in a word of the form: `RSV` and every field that
holds no operand. -/
def OperandForm.mustBeZero : OperandForm → Word
  | .f0 => 0x00ffffff
  | .fd => 0x00ffff00
  | .fa => 0x00ff0fff
  | .fb => 0x00fff0ff
  | .fab => 0x00ff00ff

/-- Why a word is illegal, R77's two cases. Both have the same effect (R78); the core does not record
which it was (log entry 18). -/
inductive IllegalWord where
  /-- R77 (a): `OPC` is not one of the 13 values. -/
  | unknownOpcode
  /-- R77 (b): a field that must be zero is not. -/
  | nonzeroReservedField
  deriving DecidableEq, Repr

/-- What decoding a word gives (R76): at most one command, or ILLEGAL. -/
inductive Decoded where
  | command (i : Instr)
  | illegal (why : IllegalWord)
  deriving DecidableEq, Repr

/-- `decode(w)` of R76, total on all 2^32 words. -/
def decode (w : Word) : Decoded :=
  match opcodeMap.find? (·.matchesWord w) with
  | some r => .command (r.build (fieldA w) (fieldB w) (fieldD w))
  | none =>
    if opcodeMap.any (·.opc == fieldOpc w) then .illegal .nonzeroReservedField
    else .illegal .unknownOpcode

/-- A word from its fields (R71); `RSV` is 0. -/
def packWord (opc : BitVec 8) (a b : BitVec 4) (d : BitVec 8) : Word :=
  opc ++ (0 : BitVec 8) ++ a ++ b ++ d

/-- The word of a command (R71, R73, R74): each operand in its field, every other field zero. -/
def encode : Instr → Word
  | .clr => packWord 0x01 0 0 0
  | .ptPush d => packWord 0x02 0 0 d
  | .keyPush d => packWord 0x03 0 0 d
  | .run => packWord 0x10 0 0 0
  | .ldst => packWord 0x20 0 0 0
  | .expand => packWord 0x21 0 0 0
  | .sub => packWord 0x30 0 0 0
  | .shr => packWord 0x31 0 0 0
  | .mix => packWord 0x32 0 0 0
  | .ark k => packWord 0x33 k 0 0
  | .rdState b => packWord 0x40 0 b 0
  | .rdSnap s b => packWord 0x41 s b 0
  | .rdRk k b => packWord 0x42 k b 0

/-- The command word for an instruction of `nbits` bits `w`, the bits above being 0; `none` where the bits
do not fit the 32-bit word (log entry 15). -/
def tableWord (nbits w : Nat) : Option Word :=
  let v := w % 2 ^ nbits
  if v < 2 ^ 32 then some (BitVec.ofNat 32 v) else none

/-- The instruction the decoder reads from a row's bits as opcode_table.json numbers them. -/
def decodeTableWord (nbits w : Nat) : Option Instr :=
  match tableWord nbits w with
  | none => none
  | some word =>
    match decode word with
    | .command i => some i
    | .illegal _ => none

end Sys2Proof
end

