-- ==== Sys2Proof/Machine/State.lean ====
section
/-! DEFINITION. The machine's state (spec/10_state.md R20), the reasons a step can stop, and the state after
reset (spec/70_reset_and_hazards.md R250). -/

namespace Sys2Proof.Machine

/-- What stops the machine: nothing. "The core never halts or locks up" (R220), so the type has no
constructor; a command's error is a value of `ERR_CODE`, never a fault (log entry 17). -/
inductive Fault where
  deriving DecidableEq, Repr

/-- Why the model gives a step no meaning. -/
inductive Refusal where
  /-- Raised by an arm of `exec` for a command that has no meaning yet; no arm raises it now. Safe: the
  model stops where the core goes on. -/
  | notModelled (mnemonic : String)
  deriving DecidableEq, Repr

/-- The values of `ERR_CODE` (R221). Codes 5 to 15 are never produced, so they have no name. -/
inductive ErrCode where
  /-- 0: the command completed. -/
  | ok
  /-- 1: an illegal word. -/
  | illegalCmd
  /-- 2: a plaintext or key count other than 16. -/
  | inputLength
  /-- 3: no valid key schedule. -/
  | rkInvalid
  /-- 4: a round-key or snapshot index out of range. -/
  | indexRange
  deriving DecidableEq, Repr

/-- What the host does at the port, at command granularity: R230's two events. -/
inductive HostEvent where
  /-- The host has the command word accepted and waits for the core to complete it (R75, R257). -/
  | cmd (w : Word)
  /-- The host asserts and releases `rst_n` (R250). -/
  | reset
  deriving DecidableEq, Repr

/-- The architectural state, exactly R20's list, and the model's own `host`. -/
structure State where
  /-- `PTB[0..15]`, the plaintext input buffer (R21). -/
  ptb : Block
  /-- `PT_CNT`, 0 to 17 (R21, R24). -/
  ptCnt : Fin 18
  /-- `KEYB[0..15]`, the key input buffer (R23). -/
  keyb : Block
  /-- `KEY_CNT`, 0 to 17 (R23, R24). -/
  keyCnt : Fin 18
  /-- `STATE`, the working state (R22). -/
  state : ByteMatrix
  /-- `RKS[0..10]`, the round-key store (R25). -/
  rks : MatrixStore
  /-- `RK_VALID` (R26). -/
  rkValid : Bool
  /-- `SNB[0..10]`, the state snapshot buffer (R27). -/
  snb : MatrixStore
  /-- `SNAP_CNT`, 0 to 11 (R28). -/
  snapCnt : Fin 12
  /-- `RDATA` (R30). -/
  rdata : Byte
  /-- `ERR_CODE` (R33). -/
  errCode : ErrCode
  /-- `ERR_STICKY` (R34). -/
  errSticky : Bool
  /-- The model's own: what the host will do at the port, oldest first (log entry 1). The port is an input
  of the core (R35); no command reads or writes this list. -/
  host : List HostEvent
  deriving DecidableEq, Repr

/-- Sixteen bytes 0x00. -/
def zeroBlock : Block := Vector.replicate 16 0

/-- The matrix of sixteen bytes 0x00. -/
def zeroMatrix : ByteMatrix := Vector.replicate 4 (Vector.replicate 4 0)

/-- Eleven all-zero matrices. -/
def zeroStore : MatrixStore := Vector.replicate 11 zeroMatrix

/-- The machine right after reset (R20, R250). The contents of `ptb`, `keyb`, `rks` and `snb`, which R40 leaves
unspecified and unobservable, are zeros (DESIGN CHOICE, log entry 4). The host has offered nothing yet
(DESIGN CHOICE, log entry 2). -/
def State.reset : State where
  ptb := zeroBlock
  ptCnt := 0
  keyb := zeroBlock
  keyCnt := 0
  state := zeroMatrix
  rks := zeroStore
  rkValid := false
  snb := zeroStore
  snapCnt := 0
  rdata := 0
  errCode := .ok
  errSticky := false
  host := []

end Sys2Proof.Machine
end

