-- ==== Sys2Proof/Machine/Flags.lean ====
section
/-! DEFINITION. The STATUS word (spec/10_state.md R31), this core's only flags, and the numbers of the error
codes (spec/60_exceptions.md R221). -/

namespace Sys2Proof.Machine

/-- The code of R221, in `STATUS[3:0]`. -/
def errCodeBits : ErrCode → BitVec 4
  | .ok => 0
  | .illegalCmd => 1
  | .inputLength => 2
  | .rkInvalid => 3
  | .indexRange => 4

/-- An input byte count as its 5-bit field (R20, R31). -/
def countBits (n : Fin 18) : BitVec 5 := BitVec.ofNat 5 n.val

/-- The snapshot count as its 4-bit field (R20, R31). -/
def snapCountBits (n : Fin 12) : BitVec 4 := BitVec.ofNat 4 n.val

/-- `STATUS` as R31's pseudocode concatenates it. Reading it changes nothing (R31, R57). -/
def statusWord (s : State) : Word :=
  (0 : BitVec 3) ++ countBits s.keyCnt ++ (0 : BitVec 3) ++ countBits s.ptCnt ++ (0 : BitVec 4)
    ++ snapCountBits s.snapCnt ++ (0 : BitVec 2) ++ BitVec.ofBool s.rkValid
    ++ BitVec.ofBool s.errSticky ++ errCodeBits s.errCode

/-- The host consumes an input only when its count is exactly 16 (R106). -/
def inputReady (cnt : Fin 18) : Bool := cnt == 16

end Sys2Proof.Machine
end

