-- ==== Sys2Proof/Machine/Operands.lean ====
section
/-! DEFINITION. Operand assembly (spec/30_encoding.md R72): each index field is an unsigned integer, and the
command, not the decoder, checks its range (spec/60_exceptions.md R222). -/

namespace Sys2Proof.Machine

/-- `b = zext(B)`: the index of a byte of a 16-byte matrix; every value is valid (R55, R72). -/
def byteOperand (b : BitVec 4) : Fin 16 := b.toFin

/-- `k = zext(A)` as an entry of `RKS`: none for 11 to 15 (R72, R222). -/
def roundKeyOperand (k : BitVec 4) : Option (Fin 11) :=
  if h : k.toNat < 11 then some ⟨k.toNat, h⟩ else none

/-- `s = zext(A)` as an entry of `SNB`: none when `s >= SNAP_CNT` (R72, R222). -/
def snapshotOperand (s : BitVec 4) (cnt : Fin 12) : Option (Fin 11) :=
  if h : s.toNat < cnt.val then some ⟨s.toNat, by omega⟩ else none

end Sys2Proof.Machine
end

