-- ==== Sys2Proof/Config.lean ====
section
/-! DEFINITION. What the specification fixes for every core (R7, R8) and what it leaves to the
implementation (R250, R264). An open parameter is an opaque constant: nothing can evaluate it. -/

namespace Sys2Proof.Config

/-- `BLOCK_BYTES` (R8): bytes of a plaintext block. -/
def blockBytes : Nat := 16

/-- `KEY_BYTES` (R8): bytes of a key. -/
def keyBytes : Nat := 16

/-- `Nb` (R7): columns of the state. -/
def nb : Nat := 4

/-- `Nk` (R7): words of the key. -/
def nk : Nat := 4

/-- `Nr` (R7): rounds. -/
def nr : Nat := 10

/-- `NUM_RK` (R8): round keys. -/
def numRk : Nat := 11

/-- `SNAP_DEPTH` (R8, R27): snapshot buffer entries. -/
def snapDepth : Nat := 11

/-- `CMD_WIDTH` (R8): bits of a command word. -/
def cmdWidth : Nat := 32

/-- `CNT_SAT` (R8, R24): where an input byte count saturates. -/
def cntSat : Nat := 17

/-- `NUM_ERR_CODES` (R8, R221): defined error codes, 0 to 4. -/
def numErrCodes : Nat := 5

/-- One less than `CMD_LATENCY(OPC)`, the OPEN parameter of R264 (log entry 11): any natural number
for each opcode. -/
opaque cmdLatencyLessOne : BitVec 8 → Nat

/-- `CMD_LATENCY(OPC)` (R75, R264): clock cycles from acceptance to `cmd_ready` rising, at least 1. It
is a function of the opcode alone, so it cannot depend on data values. -/
def cmdLatency (opc : BitVec 8) : Nat := cmdLatencyLessOne opc + 1

/-- `RESET_STYLE` (R250): how `rst_n` is sampled. -/
inductive ResetStyle where
  | synchronous
  | asynchronous
  deriving DecidableEq, Repr, Inhabited

/-- The OPEN parameter `RESET_STYLE` (R250, log entry 13). No definition of the model reads it: it is not
observable at command granularity. -/
opaque resetStyle : ResetStyle

/-- One less than `RESET_CYCLES`, the OPEN parameter of R250 (log entry 13). -/
opaque resetCyclesLessOne : Nat

/-- `RESET_CYCLES` (R250): the minimum assertion time of `rst_n`, at least 1 clock cycle. No definition of
the model reads it. -/
def resetCycles : Nat := resetCyclesLessOne + 1

end Sys2Proof.Config
end

