-- ==== Sys2Proof/Machine/Ops.lean ====
section
/-! DEFINITION. The shared operations over the core's arrays: the column-major codec (spec/40_codec.md R101),
reading a byte of an internal space (spec/20_memory.md R50), appending to an input buffer, ending a command
with or without an error (spec/00_scope.md R16), and the reset values (spec/70_reset_and_hazards.md R250). -/

namespace Sys2Proof.Machine

/-- `m[r][c]` (R13). -/
def cell (m : ByteMatrix) (r c : Fin 4) : Byte := (m.get r).get c

/-- The matrix whose cell in row `r`, column `c` is `f r c`. -/
def matrixOf (f : Fin 4 → Fin 4 → Byte) : ByteMatrix :=
  Vector.ofFn fun r => Vector.ofFn fun c => f r c

/-- The row `n mod 4` of byte index `n` (R13). -/
def rowOf (n : Fin 16) : Fin 4 := ⟨n.val % 4, by omega⟩

/-- The column `n div 4` of byte index `n` (R13). -/
def colOf (n : Fin 16) : Fin 4 := ⟨n.val / 4, by omega⟩

/-- The byte index `r + 4*c` of row `r`, column `c` (R13). -/
def byteIndexOf (r c : Fin 4) : Fin 16 := ⟨r.val + 4 * c.val, by omega⟩

/-- `toMatrix(buf)`: `m[r][c] = buf[r + 4*c]` (R101). -/
def toMatrix (buf : Block) : ByteMatrix := matrixOf fun r c => buf.get (byteIndexOf r c)

/-- Byte `n` of a matrix, `m[n mod 4][n div 4]` (R13, R101). -/
def matrixByte (m : ByteMatrix) (n : Fin 16) : Byte := cell m (rowOf n) (colOf n)

/-- `toBuffer(m)`: `buf[n] = m[n mod 4][n div 4]` (R101). -/
def toBuffer (m : ByteMatrix) : Block := Vector.ofFn fun n => matrixByte m n

/-- The internal byte-addressed spaces (R50). -/
inductive Space where
  | ptb
  | keyb
  | state
  | rks
  | snb
  | sbox
  | rcon
  deriving DecidableEq, Repr

/-- The bytes of a space (R50). -/
def spaceSize : Space → Nat
  | .ptb => 16
  | .keyb => 16
  | .state => 16
  | .rks => 176
  | .snb => 176
  | .sbox => 256
  | .rcon => 11

/-- Byte `a` of a store of eleven matrices: entry `a div 16`, byte `a mod 16` (R50). -/
def storeByte (st : MatrixStore) (a : Nat) : Option Byte :=
  (st[a / 16]?).map fun m => matrixByte m ⟨a % 16, by omega⟩

/-- `MemRead(space, a, 1)` (R15, R50): the byte at address `a`, none outside the space. -/
def memRead (sp : Space) (a : Nat) (s : State) : Option Byte :=
  match sp with
  | .ptb => s.ptb[a]?
  | .keyb => s.keyb[a]?
  | .state => if h : a < 16 then some (matrixByte s.state ⟨a, h⟩) else none
  | .rks => storeByte s.rks a
  | .snb => storeByte s.snb a
  | .sbox => if a < 256 then some (sBox (BitVec.ofNat 8 a)) else none
  | .rcon => rconTable[a]?

/-- Append a byte to an input buffer (R24): below 16 the byte is stored and the count goes up by one; at 16
or 17 the byte is discarded and the count becomes `CNT_SAT` = 17. -/
def pushByte (buf : Block) (cnt : Fin 18) (d : Byte) : Block × Fin 18 :=
  if h : cnt.val < 16 then (buf.set cnt.val d h, ⟨cnt.val + 1, by omega⟩) else (buf, 17)

/-- End a command without an error (R16): `ERR_CODE <- 0`, `ERR_STICKY` as it was. -/
def complete (s : State) : Host.Outcome State Fault Refusal :=
  .next { s with errCode := .ok }

/-- `raise CmdError(e)` (R16), this core's way to take an exception (R220, R226): the writes already in `s`
are kept, `ERR_CODE` gets the code and `ERR_STICKY` becomes 1. Nothing is saved and control goes nowhere. -/
def raise (e : ErrCode) (s : State) : Host.Outcome State Fault Refusal :=
  .next { s with errCode := e, errSticky := true }

/-- Every element of R20 at its reset value (R250); what the host is about to do is not the core's. The
arrays R40 leaves unspecified get the values of `State.reset` (DESIGN CHOICE, log entry 5). -/
def resetRegisters (s : State) : State := { State.reset with host := s.host }

end Sys2Proof.Machine
end

