-- ==== Sys2Proof/Machine/CodecCommands.lean ====
section
/-! DEFINITION. The load and read-out commands (spec/40_codec.md). -/

namespace Sys2Proof.Machine

/-- `PT_PUSH d` (R100). -/
def execPtPush (d : Byte) (s : State) : Host.Outcome State Fault Refusal :=
  let pushed := pushByte s.ptb s.ptCnt d
  complete { s with ptb := pushed.1, ptCnt := pushed.2 }

/-- `KEY_PUSH d` (R102). -/
def execKeyPush (d : Byte) (s : State) : Host.Outcome State Fault Refusal :=
  let pushed := pushByte s.keyb s.keyCnt d
  complete { s with keyb := pushed.1, keyCnt := pushed.2 }

/-- `LDST` (R104): the count is consumed whether the command succeeds or fails. -/
def execLdst (s : State) : Host.Outcome State Fault Refusal :=
  let consumed := { s with ptCnt := 0 }
  if inputReady s.ptCnt then complete { consumed with state := toMatrix s.ptb }
  else raise .inputLength consumed

/-- `RD_STATE b` (R108). -/
def execRdState (b : BitVec 4) (s : State) : Host.Outcome State Fault Refusal :=
  complete { s with rdata := matrixByte s.state (byteOperand b) }

/-- `RD_SNAP s, b` (R111). -/
def execRdSnap (i b : BitVec 4) (s : State) : Host.Outcome State Fault Refusal :=
  match snapshotOperand i s.snapCnt with
  | none => raise .indexRange s
  | some entry => complete { s with rdata := matrixByte (s.snb.get entry) (byteOperand b) }

/-- `RD_RK k, b` (R114): the range of `k` is checked before `RK_VALID` (R223). -/
def execRdRk (k b : BitVec 4) (s : State) : Host.Outcome State Fault Refusal :=
  match roundKeyOperand k with
  | none => raise .indexRange s
  | some entry =>
    if s.rkValid then complete { s with rdata := matrixByte (s.rks.get entry) (byteOperand b) }
    else raise .rkInvalid s

end Sys2Proof.Machine
end

