-- ==== Sys2Proof/Machine/KeySchedule.lean ====
section
/-! DEFINITION. The AES-128 key expansion (spec/42_key_schedule.md R171 to R175). -/

namespace Sys2Proof.Machine

/-- `{b0, b1, b2, b3}`: a word with `b0` in bits 31:24 (R172). -/
def packBytes (b0 b1 b2 b3 : Byte) : Word := b0 ++ b1 ++ b2 ++ b3

/-- Byte `r` of a word, byte 0 being bits 31:24 (R172). -/
def wordByte (w : Word) (r : Fin 4) : Byte := w.extractLsb' (8 * (3 - r.val)) 8

/-- Column `j` of a matrix as a word, row 0 in bits 31:24 (R172, log entry 10). -/
def columnWord (m : ByteMatrix) (j : Fin 4) : Word :=
  packBytes (cell m 0 j) (cell m 1 j) (cell m 2 j) (cell m 3 j)

/-- `RotWord(t)` (R173): the four bytes rotated left by one. -/
def rotWord (t : Word) : Word :=
  packBytes (wordByte t 1) (wordByte t 2) (wordByte t 3) (wordByte t 0)

/-- `SubWord(t)` (R173): the S-box on each byte. -/
def subWord (t : Word) : Word :=
  packBytes (sBox (wordByte t 0)) (sBox (wordByte t 1)) (sBox (wordByte t 2)) (sBox (wordByte t 3))

/-- `zext_32(Rcon[i div 4]) << 24` (R174), for the `i` of the recurrence, 4 to 43. -/
def rconWord (i : Nat) : Word := ((rconTable[i / 4]?).getD 0).setWidth 32 <<< 24

/-- The `temp` of R174 for word `i`, from the word before it. -/
def scheduleTemp (i : Nat) (prev : Word) : Word :=
  if i % 4 = 0 then subWord (rotWord prev) ^^^ rconWord i else prev

/-- Word `i` of the words made so far. The recurrence only asks for words that are there
(Laws/KeySchedule.lean, keyWords_length). -/
def scheduleWord (ws : List Word) (i : Nat) : Word := ws.getD i 0

/-- One turn of R174's loop: append `w[i] = w[i-4] XOR temp`. -/
def appendWord (ws : List Word) (i : Nat) : List Word :=
  ws ++ [scheduleWord ws (i - 4) ^^^ scheduleTemp i (scheduleWord ws (i - 1))]

/-- `w[0..3]`: the key's columns (R174). -/
def firstWords (key : ByteMatrix) : List Word :=
  [columnWord key 0, columnWord key 1, columnWord key 2, columnWord key 3]

/-- `w[0..43]` (R174): the loop over `i` = 4 to 43. -/
def keyWords (key : ByteMatrix) : List Word :=
  (List.range' 4 40).foldl appendWord (firstWords key)

/-- Words `w[4k..4k+3]` as the columns of round key `k` (R175). -/
def groupRoundKeys (ws : List Word) : MatrixStore :=
  Vector.ofFn fun k => matrixOf fun r j => wordByte (scheduleWord ws (4 * k.val + j.val)) r

/-- `expand(K)` (R171). -/
def expandKey (key : ByteMatrix) : MatrixStore := groupRoundKeys (keyWords key)

end Sys2Proof.Machine
end

