-- ==== Sys2Proof/Machine/Gf.lean ====
section
/-! DEFINITION. Arithmetic in GF(2^8) (spec/41_round_transforms.md R134, R135) and the S-box's construction
(R132). -/

namespace Sys2Proof.Machine

/-- `xtime(a)`: multiplication by 2 in GF(2^8) (R134). -/
def xtime (a : Byte) : Byte := (a <<< 1) ^^^ (if a.getLsbD 7 then 0x1b else 0x00)

/-- `n` turns of the loop of R135, from the partial product `p`. -/
def gmulLoop : Nat → Byte → Byte → Byte → Byte
  | 0, p, _, _ => p
  | n + 1, p, a, b =>
    gmulLoop n (if b.getLsbD 0 then p ^^^ a else p) (xtime a) (b >>> 1)

/-- `a · b`: multiplication in GF(2^8) modulo 0x11b (R135). -/
def gmul (a b : Byte) : Byte := gmulLoop 8 0x00 a b

/-- `rotl8(v, n)` (R132), for `n` up to 8. -/
def rotl8 (v : Byte) (n : Nat) : Byte := (v <<< n) ||| (v >>> (8 - n))

/-- The affine map of the S-box's construction (R132), applied to `b = inv(x)`. -/
def sBoxAffine (b : Byte) : Byte :=
  b ^^^ rotl8 b 1 ^^^ rotl8 b 2 ^^^ rotl8 b 3 ^^^ rotl8 b 4 ^^^ 0x63

end Sys2Proof.Machine
end

