-- ==== Sys2Proof/Machine/Transforms.lean ====
section
/-! DEFINITION. The four round transforms as functions of matrices (spec/41_round_transforms.md R141, R146,
R151, R156). -/

namespace Sys2Proof.Machine

/-- `SubBytes(m)`: `m'[r][c] = SBox[m[r][c]]` (R141). -/
def subBytes (m : ByteMatrix) : ByteMatrix := matrixOf fun r c => sBox (cell m r c)

/-- `ShiftRows(m)`: `m'[r][c] = m[r][(c + r) mod 4]` (R146); addition of columns is modulo 4. -/
def shiftRows (m : ByteMatrix) : ByteMatrix := matrixOf fun r c => cell m r (c + r)

/-- The fixed matrix of MixColumns, `[[02,03,01,01],[01,02,03,01],[01,01,02,03],[03,01,01,02]]` (R151). -/
def mixMatrix : ByteMatrix :=
  #v[#v[0x02, 0x03, 0x01, 0x01],
     #v[0x01, 0x02, 0x03, 0x01],
     #v[0x01, 0x01, 0x02, 0x03],
     #v[0x03, 0x01, 0x01, 0x02]]

/-- `MixColumns(m)`: the product over GF(2^8) of the fixed matrix and each column (R151). All four outputs of a
column come from its old values. -/
def mixColumns (m : ByteMatrix) : ByteMatrix :=
  matrixOf fun r c =>
    gmul (cell mixMatrix r 0) (cell m 0 c) ^^^ gmul (cell mixMatrix r 1) (cell m 1 c)
      ^^^ gmul (cell mixMatrix r 2) (cell m 2 c) ^^^ gmul (cell mixMatrix r 3) (cell m 3 c)

/-- `AddRoundKey(m, k)`: `m'[r][c] = m[r][c] ⊕ k[r][c]` (R156). -/
def addRoundKey (m k : ByteMatrix) : ByteMatrix := matrixOf fun r c => cell m r c ^^^ cell k r c

end Sys2Proof.Machine
end

