-- ==== Sys2Proof/Machine/Pipeline.lean ====
section
/-! DEFINITION. The fixed encryption sequence with its snapshots (spec/43_pipeline.md R191 to R195). -/

namespace Sys2Proof.Machine

/-- The sequence in progress: the state `st` and the snapshots taken, oldest first (R191). -/
structure Trace where
  st : ByteMatrix
  snaps : List ByteMatrix
  deriving DecidableEq, Repr

/-- `snap(st)`: append a copy of the state (R191). -/
def snapTrace (t : Trace) : Trace := { t with snaps := t.snaps ++ [t.st] }

/-- `st <- f(st)`. -/
def stepTrace (f : ByteMatrix → ByteMatrix) (t : Trace) : Trace := { t with st := f t.st }

/-- `if round = 1: snap(st)` (R191). -/
def snapInRoundOne (round : Fin 11) (t : Trace) : Trace := if round = 1 then snapTrace t else t

/-- One of the rounds 1 to 9 (R191, R192). -/
def middleRound (rk : MatrixStore) (t : Trace) (round : Fin 11) : Trace :=
  let t := snapInRoundOne round (stepTrace subBytes t)
  let t := snapInRoundOne round (stepTrace shiftRows t)
  let t := snapInRoundOne round (stepTrace mixColumns t)
  snapInRoundOne round (stepTrace (fun m => addRoundKey m (rk.get round)) t)

/-- The rounds of R191's loop, in order. -/
def middleRounds : List (Fin 11) := [1, 2, 3, 4, 5, 6, 7, 8, 9]

/-- The part of R191 before the loop: snapshots 0 and 1. -/
def openingTrace (p : ByteMatrix) (rk : MatrixStore) : Trace :=
  let t := snapTrace ⟨p, []⟩
  snapTrace (stepTrace (fun m => addRoundKey m (rk.get 0)) t)

/-- The part of R191 after the loop: snapshots 6 to 10. The final round has no MixColumns (R193). -/
def closingTrace (rk : MatrixStore) (t : Trace) : Trace :=
  let t := snapTrace t
  let t := snapTrace (stepTrace subBytes t)
  let t := snapTrace (stepTrace shiftRows t)
  let t := snapTrace (stepTrace (fun m => addRoundKey m (rk.get 10)) t)
  snapTrace t

/-- `encrypt` of R191 under an expanded key, as its state and snapshots. -/
def encryptTrace (p : ByteMatrix) (rk : MatrixStore) : Trace :=
  closingTrace rk (middleRounds.foldl (middleRound rk) (openingTrace p rk))

/-- The snapshot list as the eleven entries of `SNB` (R190). The list has exactly eleven
(R194). -/
def snapshotStore (snaps : List ByteMatrix) : MatrixStore :=
  Vector.ofFn fun i => snaps.getD i.val zeroMatrix

/-- What `encrypt(P, K)` returns (R191). -/
structure Encryption where
  st : ByteMatrix
  rk : MatrixStore
  snaps : MatrixStore
  deriving DecidableEq, Repr

/-- `encrypt(P, K)` (R191). -/
def encrypt (p key : ByteMatrix) : Encryption :=
  let rk := expandKey key
  let t := encryptTrace p rk
  ⟨t.st, rk, snapshotStore t.snaps⟩

/-- The points of the sequence at which a snapshot is taken (R195). -/
inductive SnapshotPoint where
  | input
  | afterAddRoundKey
  | afterSubBytes
  | afterShiftRows
  | afterMixColumns
  | roundComplete
  | ciphertextMarker
  deriving DecidableEq, Repr

/-- A row of R195's snapshot index map. The core does not store it: it is a fixed function of the index. -/
structure SnapshotLabel where
  point : SnapshotPoint
  round : Nat
  lastRoundKey : Option (Fin 11)
  deriving DecidableEq, Repr

/-- R195's snapshot index map, entry by entry. -/
def snapshotLabels : Vector SnapshotLabel 11 :=
  #v[⟨.input, 0, none⟩,
     ⟨.afterAddRoundKey, 0, some 0⟩,
     ⟨.afterSubBytes, 1, some 0⟩,
     ⟨.afterShiftRows, 1, some 0⟩,
     ⟨.afterMixColumns, 1, some 0⟩,
     ⟨.afterAddRoundKey, 1, some 1⟩,
     ⟨.roundComplete, 9, some 9⟩,
     ⟨.afterSubBytes, 10, some 9⟩,
     ⟨.afterShiftRows, 10, some 9⟩,
     ⟨.afterAddRoundKey, 10, some 10⟩,
     ⟨.ciphertextMarker, 10, some 10⟩]

/-- The label of snapshot `s` (R195). -/
def snapshotLabel (s : Fin 11) : SnapshotLabel := snapshotLabels.get s

end Sys2Proof.Machine
end

