-- ==== Sys2Proof/Machine/PipelineCommands.lean ====
section
/-! DEFINITION. The commands over whole results: EXPAND (spec/42_key_schedule.md R180), RUN and CLR
(spec/43_pipeline.md R190, R200). -/

namespace Sys2Proof.Machine

/-- `EXPAND` (R180): the count is consumed whether the command succeeds or fails; a failure clears
`RK_VALID`. -/
def execExpand (s : State) : Host.Outcome State Fault Refusal :=
  let consumed := { s with keyCnt := 0 }
  if inputReady s.keyCnt then
    complete { consumed with rks := expandKey (toMatrix s.keyb), rkValid := true }
  else raise .inputLength { consumed with rkValid := false }

/-- `RUN` (R190): both counts are consumed whether the command succeeds or fails; a failure clears `SNAP_CNT`
and `RK_VALID`. -/
def execRun (s : State) : Host.Outcome State Fault Refusal :=
  let consumed := { s with ptCnt := 0, keyCnt := 0 }
  if inputReady s.ptCnt && inputReady s.keyCnt then
    let e := encrypt (toMatrix s.ptb) (toMatrix s.keyb)
    complete { consumed with
      rks := e.rk, rkValid := true, snb := e.snaps, snapCnt := 11, state := e.st }
  else raise .inputLength { consumed with snapCnt := 0, rkValid := false }

/-- `CLR` (R200): every element to its reset value, `ERR_STICKY` among them. -/
def execClr (s : State) : Host.Outcome State Fault Refusal := complete (resetRegisters s)

end Sys2Proof.Machine
end

