-- ==== Sys2Proof/Machine/TransformCommands.lean ====
section
/-! DEFINITION. The single-transform commands (spec/41_round_transforms.md R140, R145, R150, R155). -/

namespace Sys2Proof.Machine

/-- `SUB` (R140). -/
def execSub (s : State) : Host.Outcome State Fault Refusal :=
  complete { s with state := subBytes s.state }

/-- `SHR` (R145). -/
def execShr (s : State) : Host.Outcome State Fault Refusal :=
  complete { s with state := shiftRows s.state }

/-- `MIX` (R150). -/
def execMix (s : State) : Host.Outcome State Fault Refusal :=
  complete { s with state := mixColumns s.state }

/-- `ARK k` (R155): the range of `k` is checked before `RK_VALID` (R223). -/
def execArk (k : BitVec 4) (s : State) : Host.Outcome State Fault Refusal :=
  match roundKeyOperand k with
  | none => raise .indexRange s
  | some entry =>
    if s.rkValid then complete { s with state := addRoundKey s.state (s.rks.get entry) }
    else raise .rkInvalid s

end Sys2Proof.Machine
end

