-- ==== Sys2Proof/Machine/Dispatch.lean ====
section
/-! DEFINITION. One arm per command (spec/30_encoding.md R74, R80). -/

namespace Sys2Proof.Machine

/-- The effect of a legal command on the state the previous command left (R10, R80). -/
def exec (i : Instr) (s : State) : Host.Outcome State Fault Refusal :=
  match i with
  | .clr => Sys2Proof.Machine.execClr s
  | .ptPush d => Sys2Proof.Machine.execPtPush d s
  | .keyPush d => Sys2Proof.Machine.execKeyPush d s
  | .run => Sys2Proof.Machine.execRun s
  | .ldst => Sys2Proof.Machine.execLdst s
  | .expand => Sys2Proof.Machine.execExpand s
  | .sub => Sys2Proof.Machine.execSub s
  | .shr => Sys2Proof.Machine.execShr s
  | .mix => Sys2Proof.Machine.execMix s
  | .ark k => Sys2Proof.Machine.execArk k s
  | .rdState b => Sys2Proof.Machine.execRdState b s
  | .rdSnap n b => Sys2Proof.Machine.execRdSnap n b s
  | .rdRk k b => Sys2Proof.Machine.execRdRk k b s

end Sys2Proof.Machine
end

