-- ==== Sys2Proof/Machine/Port.lean ====
section
/-! DEFINITION. What one event at the port does, at command granularity (spec/30_encoding.md R76 to R80,
spec/60_exceptions.md R230). -/

namespace Sys2Proof.Machine

/-- An illegal word: `ERR_CODE <- 1`, `ERR_STICKY <- 1`, nothing else (R78). -/
def illegalWord (s : State) : Host.Outcome State Fault Refusal := raise .illegalCmd s

/-- `step(state, w)` of R10 and R80: a word accepted and carried out. -/
def acceptWord (w : Word) (s : State) : Host.Outcome State Fault Refusal :=
  match decode w with
  | .command i => exec i s
  | .illegal _ => illegalWord s

/-- The effect of one event (R230): a command, or a reset, which leaves every element at its reset value. -/
def hostEvent (e : HostEvent) (s : State) : Host.Outcome State Fault Refusal :=
  match e with
  | .cmd w => acceptWord w s
  | .reset => .next (resetRegisters s)

/-- The next event of the host, taken off its list and carried out. Where the host offers nothing the core is
idle and keeps its state (R236, R252, log entry 3). -/
def nextEvent (s : State) : Host.Outcome State Fault Refusal :=
  match s.host with
  | [] => .next s
  | e :: rest => hostEvent e { s with host := rest }

/-- The host's next event is to have the word `w` accepted. -/
def offerWord (w : Word) (s : State) : State := { s with host := .cmd w :: s.host }

end Sys2Proof.Machine
end

