-- ==== Sys2Proof/Machine/Step.lean ====
section
/-! DEFINITION. The machine's step: one event of the host at the port. There is no program counter and no
fetch (spec/10_state.md R37); what the core executes next is what the host offers next. -/

namespace Sys2Proof.Machine

/-- One step (R10): the host's next event, or nothing where it offers none. -/
def step (s : State) : Host.Outcome State Fault Refusal := nextEvent s

/-- `s` with the command word of the table's bits as the host's very next event (log entry 2): the next step
accepts exactly it. Bits that are no 32-bit word leave `s` as it is (log entry 15). -/
def State.withFetchWord (s : State) (nbits w : Nat) : State :=
  match tableWord nbits w with
  | some word => offerWord word s
  | none => s

end Sys2Proof.Machine
end

