-- ==== Sys2Proof/WellFormed.lean ====
section
/-! DEFINITION. Which source lines the assembler accepts (spec/30_encoding.md R81, R82). A command as
`Instr` carries operands of exactly its fields' widths, so every `Instr` is well formed; what can be
ill formed is a line of source. -/

namespace Sys2Proof

/-- An operand of a 4-bit field: `k`, `s` or `b` in 0..15 (R81). -/
def fitsIndexField (n : Nat) : Bool := n < 16

/-- An operand of the data field: `d` in 0..255 (R81). -/
def fitsDataField (d : Nat) : Bool := d < 256

/-- A buffer written in hexadecimal: 32 digits (R82). -/
def isHexBlock (h : List Nat) : Bool := h.length == 32 && h.all (· < 16)

/-- The assembler's check of a line (R81, R82). A line that fails it has no encoding. -/
def AsmLine.wellFormed : AsmLine → Bool
  | .clr => true
  | .ptPush d => fitsDataField d
  | .keyPush d => fitsDataField d
  | .run => true
  | .ldst => true
  | .expand => true
  | .sub => true
  | .shr => true
  | .mix => true
  | .ark k => fitsIndexField k
  | .rdState b => fitsIndexField b
  | .rdSnap s b => fitsIndexField s && fitsIndexField b
  | .rdRk k b => fitsIndexField k && fitsIndexField b
  | .ptLoad h => isHexBlock h
  | .keyLoad h => isHexBlock h
  | .readState => true
  | .readSnap s => fitsIndexField s
  | .readRk k => fitsIndexField k
  | .encrypt p key => isHexBlock p && isHexBlock key
  | .round k => fitsIndexField k
  | .finalRound => true

end Sys2Proof
end

