-- ==== Sys2Proof/Machine/Assembler.lean ====
section
/-! DEFINITION. The assembler: from a source line to command words, with the pseudo-instructions' expansions
(spec/30_encoding.md R81, R82), and from text to source lines (log entry 19). -/

namespace Sys2Proof.Machine

/-- The bytes of a hexadecimal string, two digits each, first byte first (R12, R19). An odd last digit makes
no byte. -/
def hexBytes : List Nat → List Byte
  | hi :: lo :: rest => BitVec.ofNat 8 (16 * hi + lo) :: hexBytes rest
  | _ => []

/-- An operand in its 4-bit field. -/
def indexField (n : Nat) : BitVec 4 := BitVec.ofNat 4 n

/-- The sixteen byte indices 0, ..., 15. -/
def byteIndices : List (BitVec 4) := (List.range 16).map indexField

/-- `PT_LOAD h`: a PT_PUSH for each byte (R82). -/
def ptLoadCommands (h : List Nat) : List Instr := (hexBytes h).map .ptPush

/-- `KEY_LOAD h`: a KEY_PUSH for each byte (R82). -/
def keyLoadCommands (h : List Nat) : List Instr := (hexBytes h).map .keyPush

/-- `READ_STATE`: RD_STATE 0, ..., RD_STATE 15 (R82). -/
def readStateCommands : List Instr := byteIndices.map .rdState

/-- `ROUND k`: SUB, SHR, MIX, ARK k (R82). -/
def roundCommands (k : BitVec 4) : List Instr := [.sub, .shr, .mix, .ark k]

/-- `FINAL_ROUND`: SUB, SHR, ARK 10 (R82). -/
def finalRoundCommands : List Instr := [.sub, .shr, .ark 10]

/-- The commands a line stands for (R81, R82): itself, or its expansion. -/
def lineCommands : AsmLine → List Instr
  | .clr => [.clr]
  | .ptPush d => [.ptPush (BitVec.ofNat 8 d)]
  | .keyPush d => [.keyPush (BitVec.ofNat 8 d)]
  | .run => [.run]
  | .ldst => [.ldst]
  | .expand => [.expand]
  | .sub => [.sub]
  | .shr => [.shr]
  | .mix => [.mix]
  | .ark k => [.ark (indexField k)]
  | .rdState b => [.rdState (indexField b)]
  | .rdSnap s b => [.rdSnap (indexField s) (indexField b)]
  | .rdRk k b => [.rdRk (indexField k) (indexField b)]
  | .ptLoad h => ptLoadCommands h
  | .keyLoad h => keyLoadCommands h
  | .readState => readStateCommands
  | .readSnap s => byteIndices.map (.rdSnap (indexField s))
  | .readRk k => byteIndices.map (.rdRk (indexField k))
  | .encrypt p key => ptLoadCommands p ++ keyLoadCommands key ++ [.run] ++ readStateCommands
  | .round k => roundCommands (indexField k)
  | .finalRound => finalRoundCommands

/-- The command words of a line; none where an operand does not fit its field (R81). -/
def assembleLine (l : AsmLine) : Option (List Word) :=
  if l.wellFormed then some ((lineCommands l).map encode) else none

/-- A digit's value, 0 to 15; R12 writes hexadecimal in lowercase, and capitals are read too. -/
def digitValue (c : Char) : Option Nat :=
  let n := c.toNat
  if 48 ≤ n ∧ n ≤ 57 then some (n - 48)
  else if 97 ≤ n ∧ n ≤ 102 then some (n - 87)
  else if 65 ≤ n ∧ n ≤ 70 then some (n - 55)
  else none

/-- A list of hexadecimal digits, one value each. -/
def hexDigits (cs : List Char) : Option (List Nat) := cs.mapM digitValue

/-- A number in a base from its digits; none for no digits or a digit too large. -/
def numberInBase (base : Nat) (cs : List Char) : Option Nat :=
  if cs.isEmpty then none
  else (hexDigits cs).bind fun ds =>
    if ds.all (· < base) then some (ds.foldl (fun n d => base * n + d) 0) else none

/-- A number written `0x..` or in decimal (R81). -/
def parseNumber : List Char → Option Nat
  | '0' :: 'x' :: cs => numberInBase 16 cs
  | cs => numberInBase 10 cs

/-- The operands of a line, separated by a comma and a space (R81). -/
def splitOperands : List Char → List (List Char)
  | ',' :: ' ' :: cs => [] :: splitOperands cs
  | c :: cs =>
    match splitOperands cs with
    | [] => [[c]]
    | op :: ops => (c :: op) :: ops
  | [] => [[]]

/-- A line without its comment, which starts with `;` (R81), and without spaces at its end. -/
def stripComment (cs : List Char) : List Char :=
  (((cs.takeWhile (· ≠ ';')).reverse).dropWhile (· = ' ')).reverse

/-- A mnemonic and its operands, split at the first space (R81). -/
def splitLine (cs : List Char) : List Char × List (List Char) :=
  let name := cs.takeWhile (· ≠ ' ')
  match cs.dropWhile (· ≠ ' ') with
  | _ :: ops => (name, splitOperands ops)
  | [] => (name, [])

/-- The line of a mnemonic with no operand. -/
def nullaryLine (name : String) : Option AsmLine :=
  match name with
  | "CLR" => some .clr
  | "RUN" => some .run
  | "LDST" => some .ldst
  | "EXPAND" => some .expand
  | "SUB" => some .sub
  | "SHR" => some .shr
  | "MIX" => some .mix
  | "READ_STATE" => some .readState
  | "FINAL_ROUND" => some .finalRound
  | _ => none

/-- The line of a mnemonic with one operand. -/
def unaryLine (name : String) (op : List Char) : Option AsmLine :=
  match name with
  | "PT_PUSH" => (parseNumber op).map .ptPush
  | "KEY_PUSH" => (parseNumber op).map .keyPush
  | "ARK" => (parseNumber op).map .ark
  | "RD_STATE" => (parseNumber op).map .rdState
  | "READ_SNAP" => (parseNumber op).map .readSnap
  | "READ_RK" => (parseNumber op).map .readRk
  | "ROUND" => (parseNumber op).map .round
  | "PT_LOAD" => (hexDigits op).map .ptLoad
  | "KEY_LOAD" => (hexDigits op).map .keyLoad
  | _ => none

/-- The line of a mnemonic with two operands. -/
def binaryLine (name : String) (op1 op2 : List Char) : Option AsmLine :=
  match name with
  | "RD_SNAP" => (parseNumber op1).bind fun s => (parseNumber op2).map (.rdSnap s)
  | "RD_RK" => (parseNumber op1).bind fun k => (parseNumber op2).map (.rdRk k)
  | "ENCRYPT" => (hexDigits op1).bind fun p => (hexDigits op2).map (.encrypt p)
  | _ => none

/-- A source line from its characters; none where it is no line of R81 or R82. -/
def parseLine (cs : List Char) : Option AsmLine :=
  match splitLine (stripComment cs) with
  | (name, []) => nullaryLine (String.ofList name)
  | (name, [op]) => unaryLine (String.ofList name) op
  | (name, [op1, op2]) => binaryLine (String.ofList name) op1 op2
  | _ => none

/-- The command words of a line of text: none of it left out, or no encoding. A line that is empty but for a
comment stands for no command. -/
def assembleText (cs : List Char) : Option (List Word) :=
  if (stripComment cs).isEmpty then some [] else (parseLine cs).bind assembleLine

end Sys2Proof.Machine
end

