-- ==== Sys2Proof/Machine/HostProgram.lean ====
section
/-! DEFINITION. What a host observes, and the run of a host program (spec/00_scope.md R10). -/

namespace Sys2Proof.Machine

/-- What the host can see after a command: the pair (`STATUS`, `RDATA`) (R10). -/
structure Observation where
  status : Word
  rdata : Byte
  deriving DecidableEq, Repr

/-- Sampling the two outputs, which has no side effect (R30, R31, R57). -/
def observe (s : State) : Observation := ⟨statusWord s, s.rdata⟩

/-- The end of a run: the state the last command left, and the observations in order. -/
structure ProgramRun where
  final : State
  seen : List Observation
  deriving DecidableEq, Repr

/-- The run of a host program (R10): its words accepted one after another, the pair observed after each. -/
def runProgram : List Word → State → Host.Outcome ProgramRun Fault Refusal
  | [], s => .next ⟨s, []⟩
  | w :: ws, s =>
    match acceptWord w s with
    | .next t =>
      match runProgram ws t with
      | .next r => .next ⟨r.final, observe t :: r.seen⟩
      | .fault f => .fault f
      | .refused r => .refused r
    | .fault f => .fault f
    | .refused r => .refused r

/-- The commands of a list carried out one after another. -/
def execAll : List Instr → State → Host.Outcome State Fault Refusal
  | [], s => .next s
  | i :: is, s =>
    match exec i s with
    | .next t => execAll is t
    | .fault f => .fault f
    | .refused r => .refused r

/-- The host's events carried out one after another. -/
def eventAll : List HostEvent → State → Host.Outcome State Fault Refusal
  | [], s => .next s
  | e :: es, s =>
    match hostEvent e s with
    | .next t => eventAll es t
    | .fault f => .fault f
    | .refused r => .refused r

end Sys2Proof.Machine
end

