-- ==== Sys2Proof/Machine/Handshake.lean ====
section
/-! DEFINITION. The port at the level of its signals: acceptance, the time a command takes, completion and
reset, one rising edge of `clk` at a time (spec/30_encoding.md R70, R75; spec/60_exceptions.md R230;
spec/70_reset_and_hazards.md R250, R251, R257, R264). `Machine.step` is the command-level view of it (R10):
Laws/Handshake.lean relates the two. -/

namespace Sys2Proof.Machine

/-- The input signals at a rising edge of `clk` (R70). -/
structure PortIn where
  /-- `rst_n`, active low. -/
  rstN : Bool
  /-- `cmd_valid`. -/
  cmdValid : Bool
  /-- `cmd`. -/
  cmd : Word
  deriving DecidableEq, Repr

/-- A command accepted and not completed: its word and the cycles it still takes (R75). -/
structure InProgress where
  word : Word
  left : Nat
  deriving DecidableEq, Repr

/-- The core at its port. `core` is the architectural state after the last completed command; the command
in progress has not changed it yet (R56: no observation sees a partial effect). -/
structure PortCore where
  core : State
  busy : Option InProgress
  deriving DecidableEq, Repr

/-- `cmd_ready` (R75, R250): 1 whenever the core is idle and `rst_n = 1`. -/
def cmdReady (p : PortCore) (rstN : Bool) : Bool := rstN && p.busy.isNone

/-- A command is accepted at an edge with `rst_n = 1`, `cmd_valid = 1` and `cmd_ready = 1` (R70). -/
def acceptsAt (p : PortCore) (pin : PortIn) : Bool := cmdReady p pin.rstN && pin.cmdValid

/-- What happens to the command-level machine at an edge: a reset, the completion of the command in
progress, or nothing. -/
def edgeEvent (p : PortCore) (pin : PortIn) : Option HostEvent :=
  if pin.rstN then
    match p.busy with
    | some b => if b.left ≤ 1 then some (.cmd b.word) else none
    | none => none
  else some .reset

/-- What the core holds in progress after an edge: reset aborts (R230, R251), acceptance starts
`CMD_LATENCY(OPC)` cycles (R264), and `cmd_valid` and `cmd` are ignored while it is busy (R75). -/
def edgeBusy (p : PortCore) (pin : PortIn) : Option InProgress :=
  if pin.rstN then
    match p.busy with
    | some b => if b.left ≤ 1 then none else some { b with left := b.left - 1 }
    | none =>
      if pin.cmdValid then some ⟨pin.cmd, Config.cmdLatency (fieldOpc pin.cmd)⟩ else none
  else none

/-- One rising edge of `clk`. -/
def edge (pin : PortIn) (p : PortCore) : Host.Outcome PortCore Fault Refusal :=
  match edgeEvent p pin with
  | none => .next { p with busy := edgeBusy p pin }
  | some e =>
    match hostEvent e p.core with
    | .next t => .next { core := t, busy := edgeBusy p pin }
    | .fault f => .fault f
    | .refused r => .refused r

/-- The edges of a list, one after another. -/
def edgeAll : List PortIn → PortCore → Host.Outcome PortCore Fault Refusal
  | [], p => .next p
  | pin :: pins, p =>
    match edge pin p with
    | .next q => edgeAll pins q
    | .fault f => .fault f
    | .refused r => .refused r

/-- The command-level events of a list of edges: the commands that complete and the resets, in order. -/
def edgeEvents : List PortIn → PortCore → List HostEvent
  | [], _ => []
  | pin :: pins, p =>
    match edge pin p with
    | .next q => (edgeEvent p pin).toList ++ edgeEvents pins q
    | .fault _ => []
    | .refused _ => []

/-- The outputs `status` and `rdata` as a claim may use them: none while a command is in progress, when R257
leaves their values unspecified (log entry 12). -/
def portOutputs (p : PortCore) : Option Observation :=
  if p.busy.isNone then some (observe p.core) else none

/-- The core idle after reset (R250); a run starts here (R253, log entry 14). -/
def PortCore.reset : PortCore := ⟨State.reset, none⟩

end Sys2Proof.Machine
end

