-- ==== Sys2Proof/Safety.lean ====
section
/-! DEFINITION. The terms in which claims speak of runs: what a command leaves alone, which error a command
must report (spec/60_exceptions.md R222, R223), what two states must share to look alike (spec/10_state.md
R40), the machine's invariant, and the states a run can reach. -/

namespace Sys2Proof.Machine

/-- Every byte of a space reads as before (R15, R50). -/
def SameBytes (sp : Space) (s t : State) : Prop := ∀ a, memRead sp a t = memRead sp a s

/-- The plaintext input, `PTB` and `PT_CNT`, is as before. -/
def SamePlaintextInput (s t : State) : Prop := SameBytes .ptb s t ∧ t.ptCnt = s.ptCnt

/-- The key input, `KEYB` and `KEY_CNT`, is as before. -/
def SameKeyInput (s t : State) : Prop := SameBytes .keyb s t ∧ t.keyCnt = s.keyCnt

/-- The working state `STATE` is as before. -/
def SameWorkingState (s t : State) : Prop := SameBytes .state s t

/-- The key schedule, `RKS` and `RK_VALID`, is as before. -/
def SameSchedule (s t : State) : Prop := SameBytes .rks s t ∧ t.rkValid = s.rkValid

/-- The snapshots, `SNB` and `SNAP_CNT`, are as before. -/
def SameSnapshots (s t : State) : Prop := SameBytes .snb s t ∧ t.snapCnt = s.snapCnt

/-- `RDATA` is as before, and so is what the host is about to do. -/
def SameReadout (s t : State) : Prop := t.rdata = s.rdata ∧ t.host = s.host

/-- The command completed: `ERR_CODE` is 0 and `ERR_STICKY` is as before (R16, R33, R34). -/
def EndsWithoutError (s t : State) : Prop := t.errCode = .ok ∧ t.errSticky = s.errSticky

/-- The command raised `e` (R16, R33, R34). -/
def EndsWithError (e : ErrCode) (t : State) : Prop := t.errCode = e ∧ t.errSticky = true

/-- All of R20 but `ERR_CODE` and `ERR_STICKY` is as before. -/
def SameAllButStatus (s t : State) : Prop :=
  SamePlaintextInput s t ∧ SameKeyInput s t ∧ SameWorkingState s t ∧ SameSchedule s t
    ∧ SameSnapshots s t ∧ SameReadout s t

/-- All of R20 but `STATE`, `ERR_CODE` and `ERR_STICKY` is as before. -/
def SameAllButWorkingState (s t : State) : Prop :=
  SamePlaintextInput s t ∧ SameKeyInput s t ∧ SameSchedule s t ∧ SameSnapshots s t
    ∧ SameReadout s t

/-- All of R20 but `RDATA`, `ERR_CODE` and `ERR_STICKY` is as before. -/
def SameAllButReadout (s t : State) : Prop :=
  SamePlaintextInput s t ∧ SameKeyInput s t ∧ SameWorkingState s t ∧ SameSchedule s t
    ∧ SameSnapshots s t ∧ t.host = s.host

/-- The error a round-key index must raise, in the order of R223: the range first, then the schedule. -/
def roundKeyError (k : BitVec 4) (s : State) : ErrCode :=
  if 10 < k.toNat then .indexRange else if s.rkValid then .ok else .rkInvalid

/-- The error a command must report in a state: the causes of R222 in the order of R223. -/
def commandError (i : Instr) (s : State) : ErrCode :=
  match i with
  | .run => if s.ptCnt = 16 ∧ s.keyCnt = 16 then .ok else .inputLength
  | .ldst => if s.ptCnt = 16 then .ok else .inputLength
  | .expand => if s.keyCnt = 16 then .ok else .inputLength
  | .ark k => roundKeyError k s
  | .rdSnap n _ => if s.snapCnt.val ≤ n.toNat then .indexRange else .ok
  | .rdRk k _ => roundKeyError k s
  | .clr => .ok
  | .ptPush _ => .ok
  | .keyPush _ => .ok
  | .sub => .ok
  | .shr => .ok
  | .mix => .ok
  | .rdState _ => .ok

/-- The error an accepted word must report (R222, R223): `ILLEGAL_CMD` before all others. -/
def wordError (w : Word) (s : State) : ErrCode :=
  match decode w with
  | .command i => commandError i s
  | .illegal _ => .illegalCmd

/-- Two states that agree on all a host can ever read: they may differ only in contents that R40 calls
unobservable, the bytes of an input buffer not pushed since its count was cleared, the round keys while
`RK_VALID` is 0, the snapshots from `SNAP_CNT` on. -/
structure SameReadable (s t : State) : Prop where
  ptCnt : t.ptCnt = s.ptCnt
  keyCnt : t.keyCnt = s.keyCnt
  state : t.state = s.state
  rkValid : t.rkValid = s.rkValid
  snapCnt : t.snapCnt = s.snapCnt
  rdata : t.rdata = s.rdata
  errCode : t.errCode = s.errCode
  errSticky : t.errSticky = s.errSticky
  host : t.host = s.host
  ptb : ∀ n : Fin 16, n.val < s.ptCnt.val → t.ptb.get n = s.ptb.get n
  keyb : ∀ n : Fin 16, n.val < s.keyCnt.val → t.keyb.get n = s.keyb.get n
  rks : s.rkValid = true → t.rks = s.rks
  snb : ∀ n : Fin 11, n.val < s.snapCnt.val → t.snb.get n = s.snb.get n

/-- What holds of the core between commands: an error left its sticky bit (R34); the snapshot count is 0 or 11
(R28); a valid schedule is the expansion of its own entry 0 (R26, R176); eleven valid snapshots are those
of one encryption (R28, R195). -/
structure CoreInvariant (s : State) : Prop where
  stickyRecordsError : s.errCode ≠ .ok → s.errSticky = true
  snapshotCount : s.snapCnt = 0 ∨ s.snapCnt = 11
  validSchedule : s.rkValid = true → s.rks = expandKey (s.rks.get 0)
  validSnapshots : s.snapCnt = 11 → ∃ p key, s.snb = (encrypt p key).snaps

/-- A state that some run reaches: reset with any host at the port, and then steps (R253). -/
inductive Reachable : State → Prop where
  | atReset (host : List HostEvent) : Reachable { State.reset with host := host }
  | afterStep (s t : State) : Reachable s → step s = .next t → Reachable t

/-- The single-transform commands that do what RUN does (R202): LDST, EXPAND, ARK 0, ROUND 1 to ROUND 9,
FINAL_ROUND. -/
def singleStepCommands : List Instr :=
  [.ldst, .expand, .ark 0] ++ roundCommands 1 ++ roundCommands 2 ++ roundCommands 3
    ++ roundCommands 4 ++ roundCommands 5 ++ roundCommands 6 ++ roundCommands 7
    ++ roundCommands 8 ++ roundCommands 9 ++ finalRoundCommands

/-- How many of `singleStepCommands` have run at the point of R195 that snapshot `i` names (R202). -/
def singleStepsBefore : Vector Nat 11 := #v[1, 3, 4, 5, 6, 7, 39, 40, 41, 42, 42]

end Sys2Proof.Machine
end

