-- ==== Sys2Proof/Certificates/Slice0/Obligations.lean ====
section
/-! DEFINITION. The statements about the core, for the provers. Each docstring names the rule of spec/ it
formalises. -/

open Sys2Proof Sys2Proof.Machine

/-! ## Encoding and decoding -/

/-- R83: the encoding examples, and the examples of illegal words. -/
def Obligations.DecodeReadsTheSpecsExampleWords : Prop :=
  decode 0x020000a5 = .command (.ptPush 0xa5)
  ∧ decode 0x3300a000 = .command (.ark 10)
  ∧ decode 0x40000f00 = .command (.rdState 15)
  ∧ decode 0x4100a300 = .command (.rdSnap 10 3)
  ∧ decode 0x42001000 = .command (.rdRk 1 0)
  ∧ decode 0x10000000 = .command .run
  ∧ decode 0x00000000 = .illegal .unknownOpcode
  ∧ decode 0x10000001 = .illegal .nonzeroReservedField
  ∧ decode 0x30010000 = .illegal .nonzeroReservedField
  ∧ decode 0x020001a5 = .illegal .nonzeroReservedField

/-- R71 to R74, R76: every command, with every operand at every value its field admits, decodes from its
own word. -/
def Obligations.DecodeOfEncodeIsTheCommand : Prop :=
  ∀ i : Instr, decode (encode i) = .command i

/-- R76, R77 (b): a command has no other word; no bit is ignored. -/
def Obligations.EveryLegalWordIsItsCommandsEncoding : Prop :=
  ∀ (w : Word) (i : Instr), decode w = .command i → encode i = w

/-- R74: exactly 13 rows, and no word is the command of two of them, because their `OPC` values differ and every
mask covers bits 31:24. -/
def Obligations.OpcodeMapHasThirteenDisjointRows : Prop :=
  opcodeMap.length = 13
  ∧ opcodeMap.Pairwise (fun r₁ r₂ => r₁.opc ≠ r₂.opc)
  ∧ (∀ r ∈ opcodeMap, fieldOpc r.mask = 0xff ∧ fieldOpc r.matchWord = r.opc)
  ∧ opcodeMap.Pairwise
      (fun r₁ r₂ => ∀ w : Word, ¬ (r₁.matchesWord w = true ∧ r₂.matchesWord w = true))
  ∧ ∀ w : Word, ∀ r₁ ∈ opcodeMap, ∀ r₂ ∈ opcodeMap,
      r₁.matchesWord w = true → r₂.matchesWord w = true → r₁.mnemonic = r₂.mnemonic

/-- R77, R78: which words are illegal, and the one effect they all have. -/
def Obligations.IllegalWordsExactlyAndTheirEffect : Prop :=
  (∀ w : Word, (∃ why, decode w = .illegal why) ↔
      (fieldOpc w ∉ ([0x01, 0x02, 0x03, 0x10, 0x20, 0x21, 0x30, 0x31, 0x32, 0x33, 0x40, 0x41, 0x42] :
          List (BitVec 8))
        ∨ ∃ r ∈ opcodeMap, r.opc = fieldOpc w ∧
            (fieldRsv w ≠ 0
              ∨ (r.form ∈ [.f0, .fd, .fb] ∧ fieldA w ≠ 0)
              ∨ (r.form ∈ [.f0, .fd, .fa] ∧ fieldB w ≠ 0)
              ∨ (r.form ∈ [.f0, .fa, .fb, .fab] ∧ fieldD w ≠ 0))))
  ∧ ((List.range 256).filter fun n => opcodeMap.all fun r => r.opc ≠ BitVec.ofNat 8 n).length = 243
  ∧ (∀ (w : Word) (why : IllegalWord) (s : State), decode w = .illegal why →
      ∃ t, acceptWord w s = .next t ∧ EndsWithError .illegalCmd t ∧ SameAllButStatus s t)

/-! ## Steps and reset -/

/-- A step runs the decoded command: when the word the host offers next decodes to a command, the step is the
command's `exec` on the state with that offer taken. The model's step adds nothing else around `exec`: there
is no program counter to move (R37). That the host's offers stand in State is the model's choice, log entries 1 and
2. -/
def Obligations.StepRunsTheDecodedCommand : Prop :=
  (∀ (s : State) (w : Word) (rest : List HostEvent) (i : Instr),
      s.host = .cmd w :: rest → decode w = .command i →
      step s = exec i { s with host := rest })
  ∧ (∀ (s : State) (w : Word) (i : Instr), decode w = .command i →
      step (offerWord w s) = exec i s)

/-- R80: every word has one defined next state, by its command's rule or by R78. The last clause is about every
step of the machine, also one to which the host offers nothing: that the host's offers stand in State is the
model's choice (log entry 1), and that an idle step answers a next state is its inference (log entry 3). -/
def Obligations.EveryWordHasItsDefinedNextState : Prop :=
  ∀ (w : Word) (s : State),
    (∀ i, decode w = .command i → acceptWord w s = exec i s)
    ∧ (∀ why, decode w = .illegal why →
        acceptWord w s = .next { s with errCode := .illegalCmd, errSticky := true })
    ∧ (∃ t, acceptWord w s = .next t)
    ∧ (∃ t, step s = .next t)

/-- R236, R252, log entry 3 (DEDUCED): an idle core keeps its state. -/
def Obligations.IdleCoreKeepsItsState : Prop :=
  ∀ s : State, s.host = [] → step s = .next s

/-- R250 at the port, from any state and whatever was in progress: with `rst_n` low no command is accepted, the
core holds the reset values R250 gives, and at the first edge with `rst_n` high it is ready. That a reset acts at
the edge is the model's choice, log entry 13. -/
def Obligations.ResetLeavesTheResetValues : Prop :=
  ∀ (p : PortCore) (pin : PortIn), pin.rstN = false →
    cmdReady p pin.rstN = false ∧ acceptsAt p pin = false
    ∧ ∃ q, edge pin p = .next q
      ∧ q.core.ptCnt = 0 ∧ q.core.keyCnt = 0
      ∧ (∀ r c, cell q.core.state r c = 0)
      ∧ q.core.rkValid = false ∧ q.core.snapCnt = 0 ∧ q.core.rdata = 0
      ∧ q.core.errCode = .ok ∧ q.core.errSticky = false
      ∧ portOutputs q = some ⟨0x00000000, 0x00⟩
      ∧ cmdReady q true = true

/-- R20, R250: the state right after reset, in the values the specification gives. -/
def Obligations.StateAfterResetReadsAsTheSpecSays : Prop :=
  statusWord State.reset = 0x00000000 ∧ State.reset.rdata = 0x00
  ∧ State.reset.ptCnt = 0 ∧ State.reset.keyCnt = 0
  ∧ (∀ a, a < 16 → memRead .state a State.reset = some 0x00)
  ∧ State.reset.rkValid = false ∧ State.reset.snapCnt = 0
  ∧ State.reset.errCode = .ok ∧ State.reset.errSticky = false

/-- R200, R254: CLR always completes and leaves what a reset leaves, in all that can be read. -/
def Obligations.ClrLeavesTheResetState : Prop :=
  encode .clr = 0x01000000
  ∧ ∀ s : State, ∃ t u, exec .clr s = .next t ∧ hostEvent .reset s = .next u
      ∧ SameReadable u t
      ∧ t.ptCnt = 0 ∧ t.keyCnt = 0 ∧ (∀ r c, cell t.state r c = 0)
      ∧ t.rkValid = false ∧ t.snapCnt = 0 ∧ t.rdata = 0
      ∧ t.errCode = .ok ∧ t.errSticky = false
      ∧ statusWord t = 0x00000000 ∧ t.host = s.host

/-! ## The load and read-out commands -/

/-- R100: PT_PUSH. -/
def Obligations.PtPushAppendsAByte : Prop :=
  ∀ (d : Byte) (s : State),
    encode (.ptPush d) = 0x02000000 ||| d.setWidth 32
    ∧ ∃ t, exec (.ptPush d) s = .next t
      ∧ (s.ptCnt.val < 16 →
          t.ptCnt.val = s.ptCnt.val + 1
          ∧ ∀ a, memRead .ptb a t = if a = s.ptCnt.val then some d else memRead .ptb a s)
      ∧ (16 ≤ s.ptCnt.val → t.ptCnt = 17 ∧ SameBytes .ptb s t)
      ∧ EndsWithoutError s t
      ∧ SameKeyInput s t ∧ SameWorkingState s t ∧ SameSchedule s t ∧ SameSnapshots s t
      ∧ SameReadout s t

/-- R102: KEY_PUSH. -/
def Obligations.KeyPushAppendsAByte : Prop :=
  ∀ (d : Byte) (s : State),
    encode (.keyPush d) = 0x03000000 ||| d.setWidth 32
    ∧ ∃ t, exec (.keyPush d) s = .next t
      ∧ (s.keyCnt.val < 16 →
          t.keyCnt.val = s.keyCnt.val + 1
          ∧ ∀ a, memRead .keyb a t = if a = s.keyCnt.val then some d else memRead .keyb a s)
      ∧ (16 ≤ s.keyCnt.val → t.keyCnt = 17 ∧ SameBytes .keyb s t)
      ∧ EndsWithoutError s t
      ∧ SamePlaintextInput s t ∧ SameWorkingState s t ∧ SameSchedule s t ∧ SameSnapshots s t
      ∧ SameReadout s t

/-- R21, R23, R53, R255: push order is buffer order, and the two streams may be interleaved in any order. -/
def Obligations.PushOrderIsBufferOrder : Prop :=
  ∀ (is : List Instr) (s t : State),
    (∀ i ∈ is, (∃ d, i = .ptPush d) ∨ ∃ d, i = .keyPush d) →
    s.ptCnt = 0 → s.keyCnt = 0 → execAll is s = .next t →
    let pts := is.filterMap fun i => match i with | .ptPush d => some d | _ => none
    let keys := is.filterMap fun i => match i with | .keyPush d => some d | _ => none
    t.ptCnt.val = min pts.length 17 ∧ t.keyCnt.val = min keys.length 17
    ∧ (∀ n, n < 16 → n < pts.length → memRead .ptb n t = pts[n]?)
    ∧ (∀ n, n < 16 → n < keys.length → memRead .keyb n t = keys[n]?)

/-- R261: after a 17th push the count stays at 17 until a consuming command or CLR clears it. -/
def Obligations.OverSupplyStaysUntilConsumedOrCleared : Prop :=
  ∀ (is : List Instr) (s t : State), execAll is s = .next t → .clr ∉ is → .run ∉ is →
    (s.ptCnt = 17 → .ldst ∉ is → t.ptCnt = 17)
    ∧ (s.keyCnt = 17 → .expand ∉ is → t.keyCnt = 17)

/-- R104: LDST. -/
def Obligations.LdstLoadsThePlaintext : Prop :=
  encode .ldst = 0x20000000
  ∧ (∀ s : State, s.ptCnt = 16 → ∃ t, exec .ldst s = .next t
      ∧ t.ptCnt = 0 ∧ (∀ r c, cell t.state r c = s.ptb.get (byteIndexOf r c))
      ∧ EndsWithoutError s t
      ∧ SameBytes .ptb s t ∧ SameKeyInput s t ∧ SameSchedule s t ∧ SameSnapshots s t
      ∧ SameReadout s t)
  ∧ (∀ s : State, s.ptCnt ≠ 16 → ∃ t, exec .ldst s = .next t
      ∧ t.ptCnt = 0 ∧ SameWorkingState s t
      ∧ EndsWithError .inputLength t
      ∧ SameBytes .ptb s t ∧ SameKeyInput s t ∧ SameSchedule s t ∧ SameSnapshots s t
      ∧ SameReadout s t)

/-- R106: the input-length check of the consuming commands. -/
def Obligations.ConsumersCheckAndClearTheirCounts : Prop :=
  ∀ (i : Instr) (s t : State), exec i s = .next t →
    (i = .ldst ∨ i = .run → t.ptCnt = 0)
    ∧ (i = .expand ∨ i = .run → t.keyCnt = 0)
    ∧ ((i = .ldst ∨ i = .run) ∧ s.ptCnt ≠ 16 ∨ (i = .expand ∨ i = .run) ∧ s.keyCnt ≠ 16 →
        EndsWithError .inputLength t
        ∧ SameWorkingState s t ∧ SameBytes .rks s t ∧ SameBytes .snb s t)
    ∧ ((i = .ldst ∨ i = .run → s.ptCnt = 16) → (i = .expand ∨ i = .run → s.keyCnt = 16) →
        t.errCode ≠ .inputLength)

/-- R108: RD_STATE. -/
def Obligations.RdStateReadsAByte : Prop :=
  ∀ (b : BitVec 4) (s : State),
    encode (.rdState b) = 0x40000000 ||| (b.setWidth 32 <<< 8)
    ∧ ∃ t, exec (.rdState b) s = .next t
      ∧ memRead .state b.toNat s = some t.rdata
      ∧ EndsWithoutError s t ∧ SameAllButReadout s t

/-- R111: RD_SNAP. -/
def Obligations.RdSnapReadsAByteOrReportsTheIndex : Prop :=
  ∀ (n b : BitVec 4) (s : State),
    encode (.rdSnap n b) = 0x41000000 ||| (n.setWidth 32 <<< 12) ||| (b.setWidth 32 <<< 8)
    ∧ (n.toNat < s.snapCnt.val → ∃ t, exec (.rdSnap n b) s = .next t
        ∧ memRead .snb (16 * n.toNat + b.toNat) s = some t.rdata
        ∧ EndsWithoutError s t ∧ SameAllButReadout s t)
    ∧ (s.snapCnt.val ≤ n.toNat → ∃ t, exec (.rdSnap n b) s = .next t
        ∧ EndsWithError .indexRange t ∧ SameAllButStatus s t)

/-- R114: RD_RK. -/
def Obligations.RdRkReadsAByteOrReportsTheError : Prop :=
  ∀ (k b : BitVec 4) (s : State),
    encode (.rdRk k b) = 0x42000000 ||| (k.setWidth 32 <<< 12) ||| (b.setWidth 32 <<< 8)
    ∧ (k.toNat ≤ 10 → s.rkValid = true → ∃ t, exec (.rdRk k b) s = .next t
        ∧ memRead .rks (16 * k.toNat + b.toNat) s = some t.rdata
        ∧ EndsWithoutError s t ∧ SameAllButReadout s t)
    ∧ (k.toNat ≤ 10 → s.rkValid = false → ∃ t, exec (.rdRk k b) s = .next t
        ∧ EndsWithError .rkInvalid t ∧ SameAllButStatus s t)
    ∧ (10 < k.toNat → ∃ t, exec (.rdRk k b) s = .next t
        ∧ EndsWithError .indexRange t ∧ SameAllButStatus s t)

/-- R103: the codec's round trips. -/
def Obligations.CodecRoundTrips : Prop :=
  (∀ buf : Block, toBuffer (toMatrix buf) = buf) ∧ ∀ m : ByteMatrix, toMatrix (toBuffer m) = m

/-- R105: what a host pushes it reads back: 16 PT_PUSH words, LDST, RD_STATE 0 to 15. -/
def Obligations.HostReadsBackThePushedBlock : Prop :=
  ∀ (p : Block) (s : State), s.ptCnt = 0 →
    ∃ r, runProgram ((p.toList.map Instr.ptPush ++ [Instr.ldst] ++ readStateCommands).map encode) s
        = .next r
      ∧ (r.seen.drop 17).map (·.rdata) = p.toList

/-! ## The transforms -/

/-- R140, R141: SUB substitutes each byte by itself. -/
def Obligations.SubSubstitutesEachByte : Prop :=
  encode .sub = 0x30000000
  ∧ ∀ s : State, ∃ t, exec .sub s = .next t
      ∧ (∀ r c, cell t.state r c = sBox (cell s.state r c))
      ∧ EndsWithoutError s t ∧ SameAllButWorkingState s t

/-- R145, R146: SHR rotates row `r` left by `r`; four SHR restore the state. -/
def Obligations.ShrRotatesTheRows : Prop :=
  encode .shr = 0x31000000
  ∧ (∀ s : State, ∃ t, exec .shr s = .next t
      ∧ (∀ r c : Fin 4, cell t.state r c = cell s.state r ⟨(c.val + r.val) % 4, by omega⟩)
      ∧ EndsWithoutError s t ∧ SameAllButWorkingState s t)
  ∧ ∀ s : State, ∃ t, execAll [.shr, .shr, .shr, .shr] s = .next t ∧ t.state = s.state

/-- R150, R151: MIX multiplies each column by the fixed matrix. -/
def Obligations.MixMultipliesEachColumn : Prop :=
  encode .mix = 0x32000000
  ∧ ∀ s : State, ∃ t, exec .mix s = .next t
      ∧ (∀ c, cell t.state 0 c = gmul 2 (cell s.state 0 c) ^^^ gmul 3 (cell s.state 1 c)
            ^^^ cell s.state 2 c ^^^ cell s.state 3 c)
      ∧ (∀ c, cell t.state 1 c = cell s.state 0 c ^^^ gmul 2 (cell s.state 1 c)
            ^^^ gmul 3 (cell s.state 2 c) ^^^ cell s.state 3 c)
      ∧ (∀ c, cell t.state 2 c = cell s.state 0 c ^^^ cell s.state 1 c
            ^^^ gmul 2 (cell s.state 2 c) ^^^ gmul 3 (cell s.state 3 c))
      ∧ (∀ c, cell t.state 3 c = gmul 3 (cell s.state 0 c) ^^^ cell s.state 1 c
            ^^^ cell s.state 2 c ^^^ gmul 2 (cell s.state 3 c))
      ∧ EndsWithoutError s t ∧ SameAllButWorkingState s t

/-- R155, R156: ARK adds a round key, is its own inverse, and reports a bad index or a missing schedule. -/
def Obligations.ArkAddsTheRoundKeyOrReportsTheError : Prop :=
  ∀ (k : BitVec 4) (s : State),
    encode (.ark k) = 0x33000000 ||| (k.setWidth 32 <<< 12)
    ∧ (∀ h : k.toNat ≤ 10, s.rkValid = true → ∃ t, exec (.ark k) s = .next t
        ∧ (∀ r c, cell t.state r c
            = cell s.state r c ^^^ cell (s.rks.get ⟨k.toNat, by omega⟩) r c)
        ∧ EndsWithoutError s t ∧ SameAllButWorkingState s t
        ∧ ∃ u, exec (.ark k) t = .next u ∧ u.state = s.state)
    ∧ (k.toNat ≤ 10 → s.rkValid = false → ∃ t, exec (.ark k) s = .next t
        ∧ EndsWithError .rkInvalid t ∧ SameAllButStatus s t)
    ∧ (10 < k.toNat → ∃ t, exec (.ark k) s = .next t
        ∧ EndsWithError .indexRange t ∧ SameAllButStatus s t)

/-- R157: the lane view of the four transforms. -/
def Obligations.TransformsActLaneByLane : Prop :=
  (∀ m m' n, matrixByte m n = matrixByte m' n →
      matrixByte (subBytes m) n = matrixByte (subBytes m') n)
  ∧ (∀ m m' k k' n, matrixByte m n = matrixByte m' n → matrixByte k n = matrixByte k' n →
      matrixByte (addRoundKey m k) n = matrixByte (addRoundKey m' k') n)
  ∧ (∃ perm : Equiv.Perm (Fin 16),
      ∀ m n, matrixByte (shiftRows m) n = matrixByte m (perm n))
  ∧ (∀ m m' c, (∀ r, matrixByte m (byteIndexOf r c) = matrixByte m' (byteIndexOf r c)) →
      ∀ r, matrixByte (mixColumns m) (byteIndexOf r c)
        = matrixByte (mixColumns m') (byteIndexOf r c))

/-! ## The constants and the field -/

/-- R131, R132: the S-box table is the construction's. -/
def Obligations.SBoxTableIsTheConstruction : Prop :=
  sBox 0 = sBoxAffine 0
  ∧ ∀ x : Byte, x ≠ 0 → ∃ y, gmul x y = 1 ∧ sBox x = sBoxAffine y

/-- R133: the S-box is a permutation with no fixed point, and has the spot values. -/
def Obligations.SBoxIsAPermutationWithoutFixedPoint : Prop :=
  Function.Bijective sBox ∧ (∀ x, sBox x ≠ x)
  ∧ sBox 0x00 = 0x63 ∧ sBox 0x01 = 0x7c ∧ sBox 0x53 = 0xed ∧ sBox 0x52 = 0x00 ∧ sBox 0xff = 0x16

/-- R136: multiplication by the constants of MixColumns. -/
def Obligations.ConstantMultipliersAgreeWithTheProduct : Prop :=
  ∀ a : Byte, gmul 1 a = a ∧ gmul 2 a = xtime a ∧ gmul 3 a = xtime a ^^^ a

/-- R137: the laws of the field, and the spot values. -/
def Obligations.FieldLaws : Prop :=
  (∀ a b, gmul a b = gmul b a)
  ∧ (∀ a b c, gmul (gmul a b) c = gmul a (gmul b c))
  ∧ (∀ a b c, gmul a (b ^^^ c) = gmul a b ^^^ gmul a c)
  ∧ (∀ a, gmul 0 a = 0) ∧ (∀ a, gmul 1 a = a)
  ∧ xtime 0x80 = 0x1b ∧ xtime 0x57 = 0xae ∧ gmul 3 0xff = 0x1a
  ∧ gmul 0x57 0x83 = 0xc1 ∧ gmul 0x57 0x13 = 0xfe

/-- R170: the round constants; entries 1 to 10 are repeated doublings of 0x01. -/
def Obligations.RoundConstantsAreDoublings : Prop :=
  rconTable.toList = [0x00, 0x01, 0x02, 0x04, 0x08, 0x10, 0x20, 0x40, 0x80, 0x1b, 0x36]
  ∧ ∀ i : Fin 10, rcon i.succ = xtime^[i.val] 0x01

/-! ## The key schedule -/

/-- R173: RotWord is the rotation by 8, SubWord acts byte by byte. -/
def Obligations.WordFunctionsActOnBytes : Prop :=
  (∀ t : Word, rotWord t = (t <<< 8) ||| (t >>> 24))
  ∧ ∀ t0 t1 t2 t3 : Byte,
      rotWord (packBytes t0 t1 t2 t3) = packBytes t1 t2 t3 t0
      ∧ subWord (packBytes t0 t1 t2 t3) = packBytes (sBox t0) (sBox t1) (sBox t2) (sBox t3)

/-- R174, R175: the words of the expanded key, grouped as columns of the round keys, meet the recurrence. -/
def Obligations.ExpandedKeyMeetsTheRecurrence : Prop :=
  ∀ key : ByteMatrix,
    let w : Nat → Word := fun i =>
      match (expandKey key)[i / 4]? with
      | some rk => columnWord rk ⟨i % 4, by omega⟩
      | none => 0
    (∀ j : Fin 4, w j.val = columnWord key j)
    ∧ ∀ i, 4 ≤ i → i < 44 →
        w i = w (i - 4) ^^^
          (if i % 4 = 0 then subWord (rotWord (w (i - 1))) ^^^
              (((rconTable[i / 4]?).getD 0).setWidth 32 <<< 24)
            else w (i - 1))

/-- R176: round key 0 is the key, so reading it gives back the pushed bytes. -/
def Obligations.RoundKeyZeroIsTheKey : Prop :=
  (∀ key : ByteMatrix, (expandKey key).get 0 = key)
  ∧ ∀ (s : State) (b : BitVec 4), s.keyCnt = 16 →
      ∃ t u, exec .expand s = .next t ∧ exec (.rdRk 0 b) t = .next u
        ∧ memRead .keyb b.toNat s = some u.rdata

/-- R180: EXPAND. -/
def Obligations.ExpandWritesTheSchedule : Prop :=
  encode .expand = 0x21000000
  ∧ (∀ s : State, s.keyCnt = 16 → ∃ t, exec .expand s = .next t
      ∧ t.keyCnt = 0 ∧ t.rks = expandKey (toMatrix s.keyb) ∧ t.rkValid = true
      ∧ EndsWithoutError s t
      ∧ SameBytes .keyb s t ∧ SamePlaintextInput s t ∧ SameWorkingState s t ∧ SameSnapshots s t
      ∧ SameReadout s t)
  ∧ (∀ s : State, s.keyCnt ≠ 16 → ∃ t, exec .expand s = .next t
      ∧ t.keyCnt = 0 ∧ t.rkValid = false ∧ SameBytes .rks s t
      ∧ EndsWithError .inputLength t
      ∧ SameBytes .keyb s t ∧ SamePlaintextInput s t ∧ SameWorkingState s t ∧ SameSnapshots s t
      ∧ SameReadout s t)

/-- R177: the expanded key depends on the sixteen key bytes alone. -/
def Obligations.ExpansionDependsOnTheKeyAlone : Prop :=
  ∀ s s' t t' : State, s.keyCnt = 16 → s'.keyCnt = 16 →
    (∀ n, n < 16 → memRead .keyb n s = memRead .keyb n s') →
    exec .expand s = .next t → exec .expand s' = .next t' →
    ∀ a, memRead .rks a t = memRead .rks a t'

/-! ## The pipeline -/

/-- R190: RUN. -/
def Obligations.RunEncryptsOrReportsTheLength : Prop :=
  encode .run = 0x10000000
  ∧ (∀ s : State, s.ptCnt = 16 → s.keyCnt = 16 → ∃ t, exec .run s = .next t
      ∧ t.ptCnt = 0 ∧ t.keyCnt = 0
      ∧ t.state = (encrypt (toMatrix s.ptb) (toMatrix s.keyb)).st
      ∧ t.rks = (encrypt (toMatrix s.ptb) (toMatrix s.keyb)).rk ∧ t.rkValid = true
      ∧ t.snb = (encrypt (toMatrix s.ptb) (toMatrix s.keyb)).snaps ∧ t.snapCnt = 11
      ∧ EndsWithoutError s t
      ∧ SameBytes .ptb s t ∧ SameBytes .keyb s t ∧ SameReadout s t)
  ∧ (∀ s : State, s.ptCnt ≠ 16 ∨ s.keyCnt ≠ 16 → ∃ t, exec .run s = .next t
      ∧ t.ptCnt = 0 ∧ t.keyCnt = 0 ∧ t.snapCnt = 0 ∧ t.rkValid = false
      ∧ SameWorkingState s t ∧ SameBytes .rks s t ∧ SameBytes .snb s t
      ∧ EndsWithError .inputLength t
      ∧ SameBytes .ptb s t ∧ SameBytes .keyb s t ∧ SameReadout s t)

/-- R201: the known-answer requirement. From any state whose inputs hold the plaintext and the key, RUN and then
READ_STATE, READ_SNAP 9 and READ_SNAP 10 each sample the ciphertext. -/
def Obligations.KnownAnswerCiphertext : Prop :=
  let plaintext : List Byte := [0x00, 0x11, 0x22, 0x33, 0x44, 0x55, 0x66, 0x77,
    0x88, 0x99, 0xaa, 0xbb, 0xcc, 0xdd, 0xee, 0xff]
  let key : List Byte := [0x00, 0x01, 0x02, 0x03, 0x04, 0x05, 0x06, 0x07,
    0x08, 0x09, 0x0a, 0x0b, 0x0c, 0x0d, 0x0e, 0x0f]
  let ciphertext : List Byte := [0x69, 0xc4, 0xe0, 0xd8, 0x6a, 0x7b, 0x04, 0x30,
    0xd8, 0xcd, 0xb7, 0x80, 0x70, 0xb4, 0xc5, 0x5a]
  ∀ s : State, s.ptCnt = 16 → s.keyCnt = 16 → s.ptb.toList = plaintext → s.keyb.toList = key →
    ∃ r, runProgram (([Instr.run] ++ lineCommands .readState ++ lineCommands (.readSnap 9)
          ++ lineCommands (.readSnap 10)).map encode) s = .next r
      ∧ (r.seen.drop 1).map (·.rdata) = ciphertext ++ ciphertext ++ ciphertext

/-- R191, R192, R193: the encryption sequence and the eleven points at which it is recorded. -/
def Obligations.EncryptionFollowsTheSequence : Prop :=
  ∀ p key : ByteMatrix,
    let rk := expandKey key
    let e := encrypt p key
    let round : ByteMatrix → Fin 11 → ByteMatrix := fun m k =>
      addRoundKey (mixColumns (shiftRows (subBytes m))) (rk.get k)
    e.rk = rk
    ∧ e.snaps.get 0 = p
    ∧ e.snaps.get 1 = addRoundKey p (rk.get 0)
    ∧ e.snaps.get 2 = subBytes (e.snaps.get 1)
    ∧ e.snaps.get 3 = shiftRows (e.snaps.get 2)
    ∧ e.snaps.get 4 = mixColumns (e.snaps.get 3)
    ∧ e.snaps.get 5 = addRoundKey (e.snaps.get 4) (rk.get 1)
    ∧ e.snaps.get 6 = ([2, 3, 4, 5, 6, 7, 8, 9] : List (Fin 11)).foldl round (e.snaps.get 5)
    ∧ e.snaps.get 7 = subBytes (e.snaps.get 6)
    ∧ e.snaps.get 8 = shiftRows (e.snaps.get 7)
    ∧ e.snaps.get 9 = addRoundKey (e.snaps.get 8) (rk.get 10)
    ∧ e.snaps.get 10 = e.snaps.get 9
    ∧ e.st = e.snaps.get 9

/-- R194: a successful RUN records exactly eleven snapshots. -/
def Obligations.RunRecordsElevenSnapshots : Prop :=
  (∀ (p : ByteMatrix) (rk : MatrixStore), (encryptTrace p rk).snaps.length = 11)
  ∧ ∀ s t : State, exec .run s = .next t → t.errCode = .ok → t.snapCnt = 11

/-- R110: after a successful RUN the ciphertext is in `STATE` and in snapshots 9 and 10. -/
def Obligations.CiphertextIsInStateAndLastSnapshots : Prop :=
  ∀ s : State, s.ptCnt = 16 → s.keyCnt = 16 → ∃ t, exec .run s = .next t
    ∧ ∀ b, b < 16 → memRead .state b t = memRead .snb (144 + b) t
        ∧ memRead .state b t = memRead .snb (160 + b) t

/-- R199: two successful RUNs on the same input leave the same results, whatever came before. -/
def Obligations.RunForgetsThePast : Prop :=
  ∀ s s' t t' : State,
    (∀ n, n < 16 → memRead .ptb n s = memRead .ptb n s') →
    (∀ n, n < 16 → memRead .keyb n s = memRead .keyb n s') →
    exec .run s = .next t → exec .run s' = .next t' → t.errCode = .ok → t'.errCode = .ok →
    t.state = t'.state ∧ t.rks = t'.rks ∧ t.snb = t'.snb ∧ t.snapCnt = t'.snapCnt
      ∧ t.rkValid = t'.rkValid

/-- R202: the single-transform commands do what RUN does, and pass through every snapshot. -/
def Obligations.SingleStepsDoWhatRunDoes : Prop :=
  ∀ s : State, s.ptCnt = 16 → s.keyCnt = 16 →
    ∃ a b, execAll singleStepCommands s = .next a ∧ exec .run s = .next b
      ∧ a.state = b.state ∧ a.rks = b.rks ∧ a.rkValid = b.rkValid
      ∧ SameSnapshots s a
      ∧ ∀ i : Fin 11, ∃ c, execAll (singleStepCommands.take (singleStepsBefore.get i)) s = .next c
          ∧ c.state = b.snb.get i

/-! ## Errors, results and their lifetimes -/

/-- R31, R221: the fields of the STATUS word, its value after reset, and the numbers of the error codes, of which
5 to 15 are never produced. -/
def Obligations.StatusWordLayout : Prop :=
  errCodeBits .ok = 0 ∧ errCodeBits .illegalCmd = 1 ∧ errCodeBits .inputLength = 2
  ∧ errCodeBits .rkInvalid = 3 ∧ errCodeBits .indexRange = 4
  ∧ statusWord State.reset = 0
  ∧ (∀ s : State, ((statusWord s).extractLsb' 0 4).toNat < 5)
  ∧ ∀ s : State,
    (statusWord s).extractLsb' 0 4 = errCodeBits s.errCode
    ∧ (statusWord s).getLsbD 4 = s.errSticky
    ∧ (statusWord s).getLsbD 5 = s.rkValid
    ∧ (statusWord s).extractLsb' 6 2 = 0
    ∧ ((statusWord s).extractLsb' 8 4).toNat = s.snapCnt.val
    ∧ (statusWord s).extractLsb' 12 4 = 0
    ∧ ((statusWord s).extractLsb' 16 5).toNat = s.ptCnt.val
    ∧ (statusWord s).extractLsb' 21 3 = 0
    ∧ ((statusWord s).extractLsb' 24 5).toNat = s.keyCnt.val
    ∧ (statusWord s).extractLsb' 29 3 = 0

/-- R33, R222, R223: every accepted word rewrites `ERR_CODE`, with the code its cause calls for. -/
def Obligations.EveryWordReportsItsError : Prop :=
  ∀ (w : Word) (s t : State), acceptWord w s = .next t → t.errCode = wordError w s

/-- R34: the sticky bit is set by every error, cleared only by CLR and reset, and tells a host that no command of
a sequence failed. -/
def Obligations.StickyBitTellsWhetherAnyCommandFailed : Prop :=
  (∀ (w : Word) (s t : State), acceptWord w s = .next t → t.errCode ≠ .ok → t.errSticky = true)
  ∧ (∀ (w : Word) (s t : State), acceptWord w s = .next t → decode w ≠ .command .clr →
      t.errCode = .ok → t.errSticky = s.errSticky)
  ∧ (∀ (e : HostEvent) (s t : State), hostEvent e s = .next t → s.errSticky = true →
      t.errSticky = false → e = .reset ∨ ∃ w, e = .cmd w ∧ decode w = .command .clr)
  ∧ ∀ (ws : List Word) (s : State) (r : ProgramRun), runProgram ws s = .next r →
      (∀ w ∈ ws, decode w ≠ .command .clr) → r.final.errSticky = false →
      ∀ o ∈ r.seen, o.status.extractLsb' 0 4 = 0

/-- R41, R224: a command writes only the elements its row of the write matrix lists, and on an error only its
counts and valid flags; an illegal word writes none of them. -/
def Obligations.WriteMatrix : Prop :=
  (∀ (w : Word) (why : IllegalWord) (s t : State), decode w = .illegal why →
    acceptWord w s = .next t → SameAllButStatus s t)
  ∧ ∀ (i : Instr) (s t : State), exec i s = .next t →
    ((∀ d, i ≠ .ptPush d) → i ≠ .clr → SameBytes .ptb s t)
    ∧ ((∃ d, i = .ptPush d) → ∀ a, a ≠ s.ptCnt.val → memRead .ptb a t = memRead .ptb a s)
    ∧ ((∃ d, i = .keyPush d) → ∀ a, a ≠ s.keyCnt.val → memRead .keyb a t = memRead .keyb a s)
    ∧ ((∀ d, i ≠ .ptPush d) → i ∉ [.clr, .run, .ldst] → t.ptCnt = s.ptCnt)
    ∧ ((∀ d, i ≠ .keyPush d) → i ≠ .clr → SameBytes .keyb s t)
    ∧ ((∀ d, i ≠ .keyPush d) → i ∉ [.clr, .run, .expand] → t.keyCnt = s.keyCnt)
    ∧ (((∀ k, i ≠ .ark k) ∧ i ∉ [.clr, .run, .ldst, .sub, .shr, .mix]) ∨ t.errCode ≠ .ok →
        SameWorkingState s t)
    ∧ (i ∉ [.clr, .run, .expand] ∨ t.errCode ≠ .ok → SameBytes .rks s t)
    ∧ (i ∉ [.clr, .run, .expand] → t.rkValid = s.rkValid)
    ∧ (i ∉ [.clr, .run] ∨ t.errCode ≠ .ok → SameBytes .snb s t)
    ∧ (i ∉ [.clr, .run] → t.snapCnt = s.snapCnt)
    ∧ (((∀ b, i ≠ .rdState b) ∧ (∀ n b, i ≠ .rdSnap n b) ∧ (∀ k b, i ≠ .rdRk k b) ∧ i ≠ .clr)
          ∨ t.errCode ≠ .ok → t.rdata = s.rdata)
    ∧ (t.errCode = .ok → i ≠ .clr → t.errSticky = s.errSticky)
    ∧ t.host = s.host

/-- R25, R29, R262: over any program, the snapshots stay as they are until a RUN, CLR or reset, and the round keys
until a RUN, EXPAND, CLR or reset. -/
def Obligations.ResultsLastUntilTheirNextWriter : Prop :=
  ∀ (ws : List Word) (s : State) (r : ProgramRun), runProgram ws s = .next r →
    ((∀ w ∈ ws, decode w ≠ .command .run ∧ decode w ≠ .command .clr) → SameSnapshots s r.final)
    ∧ ((∀ w ∈ ws, decode w ≠ .command .run ∧ decode w ≠ .command .clr
          ∧ decode w ≠ .command .expand) → SameSchedule s r.final)

/-- R28: the snapshot count is 0 after CLR or a failing RUN, 11 after a successful RUN, and never anything else in
a state that a run reaches. -/
def Obligations.SnapshotCountIsZeroOrEleven : Prop :=
  (∀ s t : State, exec .clr s = .next t → t.snapCnt = 0)
  ∧ (∀ s t : State, exec .run s = .next t →
      (t.errCode = .ok → t.snapCnt = 11) ∧ (t.errCode ≠ .ok → t.snapCnt = 0))
  ∧ (∀ (n b : BitVec 4) (s t : State), exec (.rdSnap n b) s = .next t →
      (t.errCode = .ok ↔ n.toNat < s.snapCnt.val))
  ∧ State.reset.snapCnt = 0
  ∧ ∀ s : State, Reachable s → s.snapCnt = 0 ∨ s.snapCnt = 11

/-- R40: contents that are unspecified after reset never show: two states that agree on all that can be read go on
agreeing, step by step, and look alike at the outputs. -/
def Obligations.UnreadableContentsNeverShow : Prop :=
  ∀ s s' t : State, SameReadable s s' → step s = .next t →
    ∃ t', step s' = .next t' ∧ SameReadable t t' ∧ observe t' = observe t

/-- R26, R28, R34, R176: the invariant of the core holds after reset, with any host at the port. -/
def Obligations.ResetMeetsTheInvariant : Prop :=
  ∀ host : List HostEvent, CoreInvariant { State.reset with host := host }

/-- R26, R28, R34, R176: every step keeps the invariant of the core. -/
def Obligations.EveryStepKeepsTheInvariant : Prop :=
  ∀ s t : State, CoreInvariant s → step s = .next t → CoreInvariant t

/-! ## The port's signals -/

/-- R75: a busy port is not ready, accepts nothing and ignores `cmd_valid` and `cmd`. -/
def Obligations.BusyPortIgnoresOffers : Prop :=
  ∀ (p : PortCore) (b : InProgress) (pin : PortIn) (valid : Bool) (w : Word), p.busy = some b →
    cmdReady p pin.rstN = false ∧ acceptsAt p pin = false
    ∧ edge { pin with cmdValid := valid, cmd := w } p = edge pin p

/-- R11, R75, R264: a command accepted by an idle core completes in `CMD_LATENCY(OPC)` cycles when no reset comes,
with the effect of the command; until then the core is not ready, and the model keeps its old state (its choice, log
entry 12; the latency is open, log entry 11). -/
def Obligations.AcceptedCommandCompletesInItsLatency : Prop :=
  ∀ (p : PortCore) (pin : PortIn) (pins : List PortIn), acceptsAt p pin = true →
    (∀ e ∈ pins, e.rstN = true) → pins.length ≤ Config.cmdLatency (fieldOpc pin.cmd) →
    ∃ q, edgeAll (pin :: pins) p = .next q
      ∧ (pins.length < Config.cmdLatency (fieldOpc pin.cmd) →
          q.core = p.core ∧ cmdReady q true = false)
      ∧ (pins.length = Config.cmdLatency (fieldOpc pin.cmd) →
          acceptWord pin.cmd p.core = .next q.core ∧ cmdReady q true = true)

/-- R230, R251: reset has priority over everything and leaves no trace of a command in progress. That one edge
with `rst_n` low is a whole reset is the model's choice, log entry 13. -/
def Obligations.ResetAbortsTheCommandInProgress : Prop :=
  ∀ (p p' : PortCore) (pin : PortIn), pin.rstN = false → p'.core = p.core →
    ∃ q, edge pin p = .next q ∧ edge pin p' = .next q
      ∧ q.busy = none ∧ hostEvent .reset p.core = .next q.core

/-- R9, R10, R75: what the core does at its port, edge by edge, is what the command-level step does with the
commands that complete and the resets, in order. The two layers are the model's construction, log entries 1 and
20. It also rests on two of the model's choices: the core of a busy port keeps its old state (log entry 12), and a
reset acts at one edge (log entry 13). -/
def Obligations.PortRefinesTheCommandLevel : Prop :=
  ∀ (pins : List PortIn) (p q : PortCore) (rest : List HostEvent), edgeAll pins p = .next q →
    Host.Core.run Sys2Proof.core (edgeEvents pins p).length
        ({ p.core with host := edgeEvents pins p ++ rest } : State)
      = .next ({ q.core with host := rest } : State)

/-! ## The assembler -/

/-- R81: each operand goes in its field and every other field is zero; an operand that does not fit has no
encoding. -/
def Obligations.AssemblerPlacesOperandsOrRejects : Prop :=
  assembleLine .clr = some [0x01000000] ∧ assembleLine .run = some [0x10000000]
  ∧ assembleLine .ldst = some [0x20000000] ∧ assembleLine .expand = some [0x21000000]
  ∧ assembleLine .sub = some [0x30000000] ∧ assembleLine .shr = some [0x31000000]
  ∧ assembleLine .mix = some [0x32000000]
  ∧ (∀ d, assembleLine (.ptPush d)
      = if d ≤ 255 then some [BitVec.ofNat 32 (0x02000000 + d)] else none)
  ∧ (∀ d, assembleLine (.keyPush d)
      = if d ≤ 255 then some [BitVec.ofNat 32 (0x03000000 + d)] else none)
  ∧ (∀ k, assembleLine (.ark k)
      = if k ≤ 15 then some [BitVec.ofNat 32 (0x33000000 + k * 2 ^ 12)] else none)
  ∧ (∀ b, assembleLine (.rdState b)
      = if b ≤ 15 then some [BitVec.ofNat 32 (0x40000000 + b * 2 ^ 8)] else none)
  ∧ (∀ n b, assembleLine (.rdSnap n b)
      = if n ≤ 15 ∧ b ≤ 15 then some [BitVec.ofNat 32 (0x41000000 + n * 2 ^ 12 + b * 2 ^ 8)]
        else none)
  ∧ (∀ k b, assembleLine (.rdRk k b)
      = if k ≤ 15 ∧ b ≤ 15 then some [BitVec.ofNat 32 (0x42000000 + k * 2 ^ 12 + b * 2 ^ 8)]
        else none)

/-- R82: the pseudo-instructions' expansions. -/
def Obligations.PseudoInstructionsExpand : Prop :=
  let hex : Block → List Nat := fun p => p.toList.flatMap fun d => [d.toNat / 16, d.toNat % 16]
  let bytes : Word → List Word := fun w => (List.range 16).map fun b => w + BitVec.ofNat 32 (b * 2 ^ 8)
  (∀ p : Block, assembleLine (.ptLoad (hex p))
      = some (p.toList.map fun d => 0x02000000 + d.setWidth 32))
  ∧ (∀ p : Block, assembleLine (.keyLoad (hex p))
      = some (p.toList.map fun d => 0x03000000 + d.setWidth 32))
  ∧ assembleLine .readState = some (bytes 0x40000000)
  ∧ (∀ n, n ≤ 15 → assembleLine (.readSnap n) = some (bytes (BitVec.ofNat 32 (0x41000000 + n * 2 ^ 12))))
  ∧ (∀ k, k ≤ 15 → assembleLine (.readRk k) = some (bytes (BitVec.ofNat 32 (0x42000000 + k * 2 ^ 12))))
  ∧ (∀ p key : Block, assembleLine (.encrypt (hex p) (hex key))
      = some ((p.toList.map fun d => 0x02000000 + d.setWidth 32)
          ++ (key.toList.map fun d => 0x03000000 + d.setWidth 32) ++ [0x10000000]
          ++ bytes 0x40000000))
  ∧ (∀ k, k ≤ 15 → assembleLine (.round k)
      = some [0x30000000, 0x31000000, 0x32000000, BitVec.ofNat 32 (0x33000000 + k * 2 ^ 12)])
  ∧ assembleLine .finalRound = some [0x30000000, 0x31000000, 0x3300a000]
end

