-- ==== Sys2Proof/Laws/Ops.lean ====
section
/-! SUPPORT. The small lemmas of the shared operations: matrices by cells and by bytes, the input buffers, and
reading a space byte by byte. -/

namespace Sys2Proof.Machine

/-! ## Matrices by cells -/

@[simp] theorem cell_matrixOf (f : Fin 4 → Fin 4 → Byte) (r c : Fin 4) :
    cell (matrixOf f) r c = f r c := by
  simp [cell, matrixOf]

/-- Two matrices with the same cells are equal. -/
theorem matrix_ext {m m' : ByteMatrix} (h : ∀ r c, cell m r c = cell m' r c) : m = m' := by
  apply Vector.ext
  intro r hr
  apply Vector.ext
  intro c hc
  simpa [cell, Vector.get_eq_getElem] using h ⟨r, hr⟩ ⟨c, hc⟩

@[simp] theorem matrixOf_cell (m : ByteMatrix) : matrixOf (fun r c => cell m r c) = m :=
  matrix_ext fun r c => by simp

@[simp] theorem rowOf_byteIndexOf (r c : Fin 4) : rowOf (byteIndexOf r c) = r :=
  Fin.ext (by simp only [rowOf, byteIndexOf]; omega)

@[simp] theorem colOf_byteIndexOf (r c : Fin 4) : colOf (byteIndexOf r c) = c :=
  Fin.ext (by simp only [colOf, byteIndexOf]; omega)

@[simp] theorem byteIndexOf_rowOf_colOf (n : Fin 16) : byteIndexOf (rowOf n) (colOf n) = n :=
  Fin.ext (by simp only [rowOf, colOf, byteIndexOf]; omega)

@[simp] theorem matrixByte_byteIndexOf (m : ByteMatrix) (r c : Fin 4) :
    matrixByte m (byteIndexOf r c) = cell m r c := by
  simp [matrixByte]

/-- Two matrices with the same bytes are equal. -/
theorem matrix_ext_bytes {m m' : ByteMatrix} (h : ∀ n, matrixByte m n = matrixByte m' n) : m = m' :=
  matrix_ext fun r c => by simpa using h (byteIndexOf r c)

@[simp] theorem cell_toMatrix (buf : Block) (r c : Fin 4) :
    cell (toMatrix buf) r c = buf.get (byteIndexOf r c) := by
  simp [toMatrix]

@[simp] theorem matrixByte_toMatrix (buf : Block) (n : Fin 16) :
    matrixByte (toMatrix buf) n = buf.get n := by
  simp [matrixByte]

@[simp] theorem get_toBuffer (m : ByteMatrix) (n : Fin 16) : (toBuffer m).get n = matrixByte m n := by
  simp [toBuffer]

/-! ## The input buffers -/

/-- Below sixteen bytes a push stores its byte and counts it (R24). -/
theorem pushByte_of_lt {buf : Block} {cnt : Fin 18} (d : Byte) (h : cnt.val < 16) :
    pushByte buf cnt d = (buf.set cnt.val d h, ⟨cnt.val + 1, by omega⟩) := by
  simp [pushByte, h]

/-- From sixteen bytes on a push stores nothing and the count is 17 (R24). -/
theorem pushByte_of_ge {buf : Block} {cnt : Fin 18} (d : Byte) (h : 16 ≤ cnt.val) :
    pushByte buf cnt d = (buf, 17) := by
  simp [pushByte, Nat.not_lt.mpr h]

@[simp] theorem inputReady_iff (cnt : Fin 18) : inputReady cnt = true ↔ cnt = 16 := by
  simp [inputReady]

/-! ## Operands -/

theorem roundKeyOperand_of_le {k : BitVec 4} (h : k.toNat ≤ 10) :
    roundKeyOperand k = some ⟨k.toNat, by omega⟩ := by
  simp [roundKeyOperand, Nat.lt_succ_of_le h]

theorem roundKeyOperand_of_gt {k : BitVec 4} (h : 10 < k.toNat) : roundKeyOperand k = none := by
  simp only [roundKeyOperand, dif_neg (show ¬ k.toNat < 11 by omega)]

theorem snapshotOperand_of_lt {n : BitVec 4} {cnt : Fin 12} (h : n.toNat < cnt.val) :
    snapshotOperand n cnt = some ⟨n.toNat, by omega⟩ := by
  simp [snapshotOperand, h]

theorem snapshotOperand_of_ge {n : BitVec 4} {cnt : Fin 12} (h : cnt.val ≤ n.toNat) :
    snapshotOperand n cnt = none := by
  simp only [snapshotOperand, dif_neg (Nat.not_lt.mpr h)]

/-! ## Reading a space -/

/-- Reading byte `16·k + b` of a store of matrices reads byte `b` of its entry `k` (R50). -/
theorem storeByte_entry (st : MatrixStore) (k : Fin 11) (b : Fin 16) :
    storeByte st (16 * k.val + b.val) = some (matrixByte (st.get k) b) := by
  have h1 : (16 * k.val + b.val) / 16 = k.val := by omega
  have h2 : (⟨(16 * k.val + b.val) % 16, Nat.mod_lt _ (by decide)⟩ : Fin 16) = b :=
    Fin.ext (by simp only; omega)
  simp only [storeByte, h1, h2, Vector.get_eq_getElem, Vector.getElem?_eq_getElem k.isLt,
    Option.map_some]

/-- Two stores that read alike at every address are equal. -/
theorem store_ext {st st' : MatrixStore} (h : ∀ a, storeByte st a = storeByte st' a) : st = st' := by
  apply Vector.ext
  intro k hk
  refine matrix_ext_bytes fun b => ?_
  simpa [storeByte_entry _ ⟨k, hk⟩ b, Vector.get_eq_getElem] using h (16 * k + b.val)

theorem memRead_state_fin (s : State) (n : Fin 16) :
    memRead .state n.val s = some (matrixByte s.state n) := by
  simp [memRead]

theorem memRead_ptb_fin (s : State) (n : Fin 16) : memRead .ptb n.val s = some (s.ptb.get n) := by
  simp [memRead, Vector.get_eq_getElem]

theorem memRead_keyb_fin (s : State) (n : Fin 16) : memRead .keyb n.val s = some (s.keyb.get n) := by
  simp [memRead, Vector.get_eq_getElem]

/-- A buffer whose bytes all read alike is the same buffer. -/
theorem block_ext {b b' : Block} (h : ∀ n : Nat, n < 16 → b[n]? = b'[n]?) : b = b' := by
  apply Vector.ext
  intro n hn
  simpa [Vector.getElem?_eq_getElem, hn] using h n hn

theorem sameBytes_ptb_iff {s t : State} : SameBytes .ptb s t ↔ t.ptb = s.ptb :=
  ⟨fun h => block_ext fun n _ => h n, fun h a => by simp [memRead, h]⟩

theorem sameBytes_keyb_iff {s t : State} : SameBytes .keyb s t ↔ t.keyb = s.keyb :=
  ⟨fun h => block_ext fun n _ => h n, fun h a => by simp [memRead, h]⟩

theorem sameBytes_state_iff {s t : State} : SameBytes .state s t ↔ t.state = s.state :=
  ⟨fun h => matrix_ext_bytes fun n => by simpa [memRead] using h n.val,
    fun h a => by simp [memRead, h]⟩

theorem sameBytes_rks_iff {s t : State} : SameBytes .rks s t ↔ t.rks = s.rks :=
  ⟨fun h => store_ext h, fun h a => by simp [memRead, h]⟩

theorem sameBytes_snb_iff {s t : State} : SameBytes .snb s t ↔ t.snb = s.snb :=
  ⟨fun h => store_ext h, fun h a => by simp [memRead, h]⟩

end Sys2Proof.Machine
end

