-- ==== Sys2Proof/Laws/State.lean ====
section
/-! SUPPORT. What each named update of the state does to each field, by `rfl`, so that no later proof unfolds a
record update. -/

namespace Sys2Proof.Machine

section Updates

variable (s : State) (w : Word)

@[simp] theorem resetRegisters_ptb : (resetRegisters s).ptb = State.reset.ptb := rfl
@[simp] theorem resetRegisters_ptCnt : (resetRegisters s).ptCnt = State.reset.ptCnt := rfl
@[simp] theorem resetRegisters_keyb : (resetRegisters s).keyb = State.reset.keyb := rfl
@[simp] theorem resetRegisters_keyCnt : (resetRegisters s).keyCnt = State.reset.keyCnt := rfl
@[simp] theorem resetRegisters_state : (resetRegisters s).state = State.reset.state := rfl
@[simp] theorem resetRegisters_rks : (resetRegisters s).rks = State.reset.rks := rfl
@[simp] theorem resetRegisters_rkValid : (resetRegisters s).rkValid = State.reset.rkValid := rfl
@[simp] theorem resetRegisters_snb : (resetRegisters s).snb = State.reset.snb := rfl
@[simp] theorem resetRegisters_snapCnt : (resetRegisters s).snapCnt = State.reset.snapCnt := rfl
@[simp] theorem resetRegisters_rdata : (resetRegisters s).rdata = State.reset.rdata := rfl
@[simp] theorem resetRegisters_errCode : (resetRegisters s).errCode = State.reset.errCode := rfl
@[simp] theorem resetRegisters_errSticky : (resetRegisters s).errSticky = State.reset.errSticky := rfl
@[simp] theorem resetRegisters_host : (resetRegisters s).host = s.host := rfl

@[simp] theorem offerWord_ptb : (offerWord w s).ptb = s.ptb := rfl
@[simp] theorem offerWord_ptCnt : (offerWord w s).ptCnt = s.ptCnt := rfl
@[simp] theorem offerWord_keyb : (offerWord w s).keyb = s.keyb := rfl
@[simp] theorem offerWord_keyCnt : (offerWord w s).keyCnt = s.keyCnt := rfl
@[simp] theorem offerWord_state : (offerWord w s).state = s.state := rfl
@[simp] theorem offerWord_rks : (offerWord w s).rks = s.rks := rfl
@[simp] theorem offerWord_rkValid : (offerWord w s).rkValid = s.rkValid := rfl
@[simp] theorem offerWord_snb : (offerWord w s).snb = s.snb := rfl
@[simp] theorem offerWord_snapCnt : (offerWord w s).snapCnt = s.snapCnt := rfl
@[simp] theorem offerWord_rdata : (offerWord w s).rdata = s.rdata := rfl
@[simp] theorem offerWord_errCode : (offerWord w s).errCode = s.errCode := rfl
@[simp] theorem offerWord_errSticky : (offerWord w s).errSticky = s.errSticky := rfl
@[simp] theorem offerWord_host : (offerWord w s).host = .cmd w :: s.host := rfl

/-- Ending a command without an error writes `ERR_CODE` alone (R16). -/
theorem complete_eq : complete s = .next { s with errCode := .ok } := rfl

/-- Raising an error writes `ERR_CODE` and `ERR_STICKY` alone (R16). -/
theorem raise_eq (e : ErrCode) :
    raise e s = .next { s with errCode := e, errSticky := true } := rfl

/-- All that ending a command without an error can do. -/
@[simp] theorem complete_next {t : State} :
    complete s = .next t ↔ t = { s with errCode := .ok } := by
  simp [complete_eq, eq_comm]

/-- All that raising an error can do. -/
@[simp] theorem raise_next {e : ErrCode} {t : State} :
    raise e s = .next t ↔ t = { s with errCode := e, errSticky := true } := by
  simp [raise_eq, eq_comm]

/-- What the core does next is what the host offers next; nothing else enters a step. -/
theorem step_offerWord : step (offerWord w s) = acceptWord w s := rfl

/-- The step of a state whose host has an event to offer. -/
theorem step_of_host_cons {e : HostEvent} {rest : List HostEvent} (h : s.host = e :: rest) :
    step s = hostEvent e { s with host := rest } := by
  simp [step, nextEvent, h]

/-- The step of a state whose host offers nothing. -/
theorem step_of_host_nil (h : s.host = []) : step s = .next s := by
  simp [step, nextEvent, h]

end Updates

end Sys2Proof.Machine
end

