-- ==== Sys2Proof/Laws/Commands.lean ====
section
/-! SUPPORT. For each command, all that its meaning can do: the one next state it answers, by cases. Later proofs
cite these and unfold no meaning. -/

namespace Sys2Proof.Machine

section Meanings

variable {s t : State}

theorem execClr_next : execClr s = .next t ↔ t = { resetRegisters s with errCode := .ok } := by
  simp [execClr]

theorem execPtPush_next {d : Byte} : execPtPush d s = .next t ↔
    t = { s with ptb := (pushByte s.ptb s.ptCnt d).1, ptCnt := (pushByte s.ptb s.ptCnt d).2,
                 errCode := .ok } := by
  simp [execPtPush]

theorem execKeyPush_next {d : Byte} : execKeyPush d s = .next t ↔
    t = { s with keyb := (pushByte s.keyb s.keyCnt d).1, keyCnt := (pushByte s.keyb s.keyCnt d).2,
                 errCode := .ok } := by
  simp [execKeyPush]

theorem execLdst_next : execLdst s = .next t ↔
    t = if s.ptCnt = 16 then { s with ptCnt := 0, state := toMatrix s.ptb, errCode := .ok }
        else { s with ptCnt := 0, errCode := .inputLength, errSticky := true } := by
  by_cases h : s.ptCnt = 16 <;> simp [execLdst, h]

theorem execExpand_next : execExpand s = .next t ↔
    t = if s.keyCnt = 16 then
          { s with keyCnt := 0, rks := expandKey (toMatrix s.keyb), rkValid := true, errCode := .ok }
        else { s with keyCnt := 0, rkValid := false, errCode := .inputLength, errSticky := true } := by
  by_cases h : s.keyCnt = 16 <;> simp [execExpand, h]

theorem execRun_next : execRun s = .next t ↔
    t = if s.ptCnt = 16 ∧ s.keyCnt = 16 then
          { s with ptCnt := 0, keyCnt := 0,
                   state := (encrypt (toMatrix s.ptb) (toMatrix s.keyb)).st,
                   rks := (encrypt (toMatrix s.ptb) (toMatrix s.keyb)).rk, rkValid := true,
                   snb := (encrypt (toMatrix s.ptb) (toMatrix s.keyb)).snaps, snapCnt := 11,
                   errCode := .ok }
        else { s with ptCnt := 0, keyCnt := 0, snapCnt := 0, rkValid := false,
                      errCode := .inputLength, errSticky := true } := by
  by_cases h : s.ptCnt = 16 <;> by_cases h' : s.keyCnt = 16 <;>
    simp [execRun, h, h', inputReady]

theorem execSub_next : execSub s = .next t ↔
    t = { s with state := subBytes s.state, errCode := .ok } := by
  simp [execSub]

theorem execShr_next : execShr s = .next t ↔
    t = { s with state := shiftRows s.state, errCode := .ok } := by
  simp [execShr]

theorem execMix_next : execMix s = .next t ↔
    t = { s with state := mixColumns s.state, errCode := .ok } := by
  simp [execMix]

theorem execArk_next {k : BitVec 4} : execArk k s = .next t ↔
    t = match roundKeyOperand k with
        | none => { s with errCode := .indexRange, errSticky := true }
        | some n =>
          if s.rkValid then { s with state := addRoundKey s.state (s.rks.get n), errCode := .ok }
          else { s with errCode := .rkInvalid, errSticky := true } := by
  unfold execArk
  cases roundKeyOperand k <;> cases h : s.rkValid <;> simp [h]

theorem execRdState_next {b : BitVec 4} : execRdState b s = .next t ↔
    t = { s with rdata := matrixByte s.state (byteOperand b), errCode := .ok } := by
  simp [execRdState]

theorem execRdSnap_next {n b : BitVec 4} : execRdSnap n b s = .next t ↔
    t = match snapshotOperand n s.snapCnt with
        | none => { s with errCode := .indexRange, errSticky := true }
        | some i => { s with rdata := matrixByte (s.snb.get i) (byteOperand b), errCode := .ok } := by
  unfold execRdSnap
  cases snapshotOperand n s.snapCnt <;> simp

theorem execRdRk_next {k b : BitVec 4} : execRdRk k b s = .next t ↔
    t = match roundKeyOperand k with
        | none => { s with errCode := .indexRange, errSticky := true }
        | some n =>
          if s.rkValid then
            { s with rdata := matrixByte (s.rks.get n) (byteOperand b), errCode := .ok }
          else { s with errCode := .rkInvalid, errSticky := true } := by
  unfold execRdRk
  cases roundKeyOperand k <;> cases h : s.rkValid <;> simp [h]

end Meanings

/-- An illegal word does this and nothing else (R78). -/
theorem illegalWord_next {s t : State} : illegalWord s = .next t ↔
    t = { s with errCode := .illegalCmd, errSticky := true } := by
  simp [illegalWord]

/-- Every command completes (R11). -/
theorem exec_completes (i : Instr) (s : State) : ∃ t, exec i s = .next t := by
  cases i
  case clr => exact ⟨_, execClr_next.mpr rfl⟩
  case ptPush => exact ⟨_, execPtPush_next.mpr rfl⟩
  case keyPush => exact ⟨_, execKeyPush_next.mpr rfl⟩
  case run => exact ⟨_, execRun_next.mpr rfl⟩
  case ldst => exact ⟨_, execLdst_next.mpr rfl⟩
  case expand => exact ⟨_, execExpand_next.mpr rfl⟩
  case sub => exact ⟨_, execSub_next.mpr rfl⟩
  case shr => exact ⟨_, execShr_next.mpr rfl⟩
  case mix => exact ⟨_, execMix_next.mpr rfl⟩
  case ark => exact ⟨_, execArk_next.mpr rfl⟩
  case rdState => exact ⟨_, execRdState_next.mpr rfl⟩
  case rdSnap => exact ⟨_, execRdSnap_next.mpr rfl⟩
  case rdRk => exact ⟨_, execRdRk_next.mpr rfl⟩

end Sys2Proof.Machine
end

