-- ==== Sys2Proof/Laws/Decode.lean ====
section
/-! SUPPORT. A command word by its fields. -/

namespace Sys2Proof

/-- Each bit of a packed word is a bit of its field (R71). -/
theorem getLsbD_packWord (opc : BitVec 8) (a b : BitVec 4) (d : BitVec 8) (i : Nat) :
    (packWord opc a b d).getLsbD i =
      if i < 8 then d.getLsbD i else if i < 12 then b.getLsbD (i - 8)
      else if i < 16 then a.getLsbD (i - 12) else if i < 24 then false
      else opc.getLsbD (i - 24) := by
  have h : (packWord opc a b d).getLsbD i
      = (opc ++ (0 : BitVec 8) ++ a ++ b ++ d : BitVec (8 + 8 + 4 + 4 + 8)).getLsbD i := rfl
  rw [h]
  simp only [BitVec.getLsbD_append]
  split_ifs <;> first | rfl | omega | simp

theorem getLsbD_fieldOpc (w : Word) {i : Nat} (h : i < 8) :
    (fieldOpc w).getLsbD i = w.getLsbD (24 + i) := by
  simp [fieldOpc, h]

theorem getLsbD_fieldRsv (w : Word) {i : Nat} (h : i < 8) :
    (fieldRsv w).getLsbD i = w.getLsbD (16 + i) := by
  simp [fieldRsv, h]

theorem getLsbD_fieldA (w : Word) {i : Nat} (h : i < 4) :
    (fieldA w).getLsbD i = w.getLsbD (12 + i) := by
  simp [fieldA, h]

theorem getLsbD_fieldB (w : Word) {i : Nat} (h : i < 4) :
    (fieldB w).getLsbD i = w.getLsbD (8 + i) := by
  simp [fieldB, h]

theorem getLsbD_fieldD (w : Word) {i : Nat} (h : i < 8) :
    (fieldD w).getLsbD i = w.getLsbD i := by
  simp [fieldD, h]

/-- A word with a zero `RSV` field is its fields packed again (R71). -/
theorem packWord_fields {w : Word} (h : fieldRsv w = 0) :
    packWord (fieldOpc w) (fieldA w) (fieldB w) (fieldD w) = w := by
  apply BitVec.eq_of_getLsbD_eq
  intro i hi
  rw [getLsbD_packWord]
  split_ifs with h1 h2 h3 h4
  · exact getLsbD_fieldD w h1
  · rw [getLsbD_fieldB w (by omega)]; congr 1; omega
  · rw [getLsbD_fieldA w (by omega)]; congr 1; omega
  · have := getLsbD_fieldRsv w (i := i - 16) (by omega)
    rw [h, show 16 + (i - 16) = i by omega] at this
    rw [← this]; simp
  · rw [getLsbD_fieldOpc w (by omega)]; congr 1; omega

end Sys2Proof
end

