-- ==== Sys2Proof/Laws/Flags.lean ====
section
/-! SUPPORT. The STATUS word bit by bit. -/

namespace Sys2Proof.Machine

/-- Each bit of STATUS is a bit of its field, or 0 where R31 reserves it. -/
theorem getLsbD_statusWord (s : State) (i : Nat) :
    (statusWord s).getLsbD i =
      if i < 4 then (errCodeBits s.errCode).getLsbD i
      else if i < 5 then (BitVec.ofBool s.errSticky).getLsbD (i - 4)
      else if i < 6 then (BitVec.ofBool s.rkValid).getLsbD (i - 5)
      else if i < 8 then false
      else if i < 12 then (snapCountBits s.snapCnt).getLsbD (i - 8)
      else if i < 16 then false
      else if i < 21 then (countBits s.ptCnt).getLsbD (i - 16)
      else if i < 24 then false
      else if i < 29 then (countBits s.keyCnt).getLsbD (i - 24)
      else false := by
  by_cases hi : 32 ≤ i
  · rw [BitVec.getLsbD_of_ge _ _ hi]
    simp only [show ¬ i < 4 by omega, show ¬ i < 5 by omega, show ¬ i < 6 by omega,
      show ¬ i < 8 by omega, show ¬ i < 12 by omega, show ¬ i < 16 by omega,
      show ¬ i < 21 by omega, show ¬ i < 24 by omega, show ¬ i < 29 by omega, if_false]
  have h : (statusWord s).getLsbD i =
      ((0 : BitVec 3) ++ countBits s.keyCnt ++ (0 : BitVec 3) ++ countBits s.ptCnt ++ (0 : BitVec 4)
        ++ snapCountBits s.snapCnt ++ (0 : BitVec 2) ++ BitVec.ofBool s.rkValid
        ++ BitVec.ofBool s.errSticky ++ errCodeBits s.errCode :
        BitVec (3 + 5 + 3 + 5 + 4 + 4 + 2 + 1 + 1 + 4)).getLsbD i := rfl
  rw [h]
  repeat' rw [BitVec.getLsbD_append]
  generalize countBits s.keyCnt = key
  generalize countBits s.ptCnt = pt
  generalize snapCountBits s.snapCnt = snap
  generalize errCodeBits s.errCode = err
  clear h
  have hi' : i < 32 := by omega
  interval_cases i <;> simp

end Sys2Proof.Machine
end

