-- ==== Sys2Proof/Laws/Handshake.lean ====
section
/-! SUPPORT. The port's small lemmas: an edge, an accepted word and an event always give a next state, and by
which case. -/

namespace Sys2Proof.Machine

/-- The meaning of an accepted word whose decoding is known. -/
theorem acceptWord_of_command {w : Word} {i : Instr} (h : decode w = .command i) (s : State) :
    acceptWord w s = exec i s := by
  simp [acceptWord, h]

theorem acceptWord_of_illegal {w : Word} {why : IllegalWord} (h : decode w = .illegal why)
    (s : State) : acceptWord w s = .next { s with errCode := .illegalCmd, errSticky := true } := by
  simp [acceptWord, h, illegalWord, raise_eq]

/-- Every accepted word completes (R11, R80). -/
theorem acceptWord_completes (w : Word) (s : State) : ∃ t, acceptWord w s = .next t := by
  cases h : decode w with
  | command i => rw [acceptWord_of_command h]; exact exec_completes i s
  | illegal why => exact ⟨_, acceptWord_of_illegal h s⟩

/-- Every event completes (R230). -/
theorem hostEvent_completes (e : HostEvent) (s : State) : ∃ t, hostEvent e s = .next t := by
  cases e with
  | cmd w => exact acceptWord_completes w s
  | reset => exact ⟨_, rfl⟩

/-- An edge at which no event happens changes only what is in progress. -/
theorem edge_of_no_event {p : PortCore} {pin : PortIn} (h : edgeEvent p pin = none) :
    edge pin p = .next { p with busy := edgeBusy p pin } := by
  simp [edge, h]

/-- An edge at which an event happens carries it out. -/
theorem edge_of_event {p : PortCore} {pin : PortIn} {e : HostEvent} {t : State}
    (h : edgeEvent p pin = some e) (ht : hostEvent e p.core = .next t) :
    edge pin p = .next { core := t, busy := edgeBusy p pin } := by
  simp [edge, h, ht]

/-- All that an edge can do. -/
theorem edge_cases {p q : PortCore} {pin : PortIn} (h : edge pin p = .next q) :
    q.busy = edgeBusy p pin ∧
      ((edgeEvent p pin = none ∧ q.core = p.core) ∨
        ∃ e, edgeEvent p pin = some e ∧ hostEvent e p.core = .next q.core) := by
  cases he : edgeEvent p pin with
  | none =>
    rw [edge_of_no_event he] at h
    obtain rfl := Host.Outcome.next.inj h
    exact ⟨rfl, .inl ⟨rfl, rfl⟩⟩
  | some e =>
    obtain ⟨t, ht⟩ := hostEvent_completes e p.core
    rw [edge_of_event he ht] at h
    obtain rfl := Host.Outcome.next.inj h
    exact ⟨rfl, .inr ⟨e, rfl, ht⟩⟩

end Sys2Proof.Machine
end

