-- ==== Sys2Proof/Laws/KeySchedule.lean ====
section
/-! SUPPORT. The key words as a list: its length, and that a word once made stays. -/

namespace Sys2Proof.Machine

@[simp] theorem appendWord_length (ws : List Word) (i : Nat) :
    (appendWord ws i).length = ws.length + 1 := by
  simp [appendWord]

theorem foldl_appendWord_length (is : List Nat) (ws : List Word) :
    (is.foldl appendWord ws).length = ws.length + is.length := by
  induction is generalizing ws with
  | nil => rfl
  | cons i is ih => simp [ih]; omega

/-- The expansion makes 44 words (R174). -/
theorem keyWords_length (key : ByteMatrix) : (keyWords key).length = 44 := by
  simp [keyWords, foldl_appendWord_length, firstWords]

/-- A word that is there stays as it is when later words are appended. -/
theorem scheduleWord_foldl (is : List Nat) (ws : List Word) {n : Nat} (h : n < ws.length) :
    scheduleWord (is.foldl appendWord ws) n = scheduleWord ws n := by
  induction is generalizing ws with
  | nil => rfl
  | cons i is ih =>
    rw [List.foldl_cons, ih _ (by simp; omega)]
    simp [scheduleWord, appendWord, List.getElem?_append_left h]

/-- The bits of a packed word, byte by byte from the low end (R172). -/
theorem getLsbD_packBytes (b0 b1 b2 b3 : Byte) (i : Nat) :
    (packBytes b0 b1 b2 b3).getLsbD i =
      if i < 8 then b3.getLsbD i else if i < 16 then b2.getLsbD (i - 8)
      else if i < 24 then b1.getLsbD (i - 16) else b0.getLsbD (i - 24) := by
  have h : (packBytes b0 b1 b2 b3).getLsbD i
      = (b0 ++ b1 ++ b2 ++ b3 : BitVec (8 + 8 + 8 + 8)).getLsbD i := rfl
  rw [h]
  simp only [BitVec.getLsbD_append]
  split_ifs <;> first | rfl | omega

/-- The bits of a word's byte `r`. -/
theorem getLsbD_wordByte (w : Word) (r : Fin 4) {i : Nat} (h : i < 8) :
    (wordByte w r).getLsbD i = w.getLsbD (8 * (3 - r.val) + i) := by
  simp [wordByte, h]

/-- Unpacking gives back the bytes packed (R172). -/
@[simp] theorem wordByte_packBytes (b0 b1 b2 b3 : Byte) (r : Fin 4) :
    wordByte (packBytes b0 b1 b2 b3) r = #v[b0, b1, b2, b3].get r := by
  apply BitVec.eq_of_getLsbD_eq
  intro i hi
  rw [getLsbD_wordByte _ _ hi, getLsbD_packBytes]
  fin_cases r <;> simp only [Vector.get] <;> split_ifs <;> first | omega | simp

/-- A word is its four bytes packed again (R172). -/
theorem packBytes_wordByte (w : Word) :
    packBytes (wordByte w 0) (wordByte w 1) (wordByte w 2) (wordByte w 3) = w := by
  apply BitVec.eq_of_getLsbD_eq
  intro i hi
  rw [getLsbD_packBytes]
  split_ifs with h1 h2 h3 <;> rw [getLsbD_wordByte _ _ (by omega)] <;> congr 1 <;>
    first | (simp; done) | (simp; omega)

end Sys2Proof.Machine
end

