-- ==== Sys2Proof/Laws/PerInstr.lean ====
section
/-! SUPPORT. The per-command family EncodesItsRow: the word of a command is a word of its row of the opcode map,
whatever its operands (spec/30_encoding.md R73, R74). -/

namespace Sys2Proof.Laws.EncodesItsRow

/-- The command's word matches a row of R74 with its opcode, its `RSV` field is 0, and every field its form leaves
without an operand is 0 (R73). -/
def Statement (i : Instr) : Prop :=
  ∃ r ∈ opcodeMap, r.matchesWord (encode i) = true ∧ fieldOpc (encode i) = r.opc
    ∧ encode i &&& r.form.mustBeZero = 0

theorem clr : Statement .clr := by
  refine ⟨opcodeMap[0], List.getElem_mem _, ?_⟩; decide

theorem ptPush (d : Byte) : Statement (.ptPush d) := by
  refine ⟨opcodeMap[1], List.getElem_mem _, ?_⟩; revert d; decide

theorem keyPush (d : Byte) : Statement (.keyPush d) := by
  refine ⟨opcodeMap[2], List.getElem_mem _, ?_⟩; revert d; decide

theorem run : Statement .run := by
  refine ⟨opcodeMap[3], List.getElem_mem _, ?_⟩; decide

theorem ldst : Statement .ldst := by
  refine ⟨opcodeMap[4], List.getElem_mem _, ?_⟩; decide

theorem expand : Statement .expand := by
  refine ⟨opcodeMap[5], List.getElem_mem _, ?_⟩; decide

theorem sub : Statement .sub := by
  refine ⟨opcodeMap[6], List.getElem_mem _, ?_⟩; decide

theorem shr : Statement .shr := by
  refine ⟨opcodeMap[7], List.getElem_mem _, ?_⟩; decide

theorem mix : Statement .mix := by
  refine ⟨opcodeMap[8], List.getElem_mem _, ?_⟩; decide

theorem ark (k : BitVec 4) : Statement (.ark k) := by
  refine ⟨opcodeMap[9], List.getElem_mem _, ?_⟩; revert k; decide

theorem rdState (b : BitVec 4) : Statement (.rdState b) := by
  refine ⟨opcodeMap[10], List.getElem_mem _, ?_⟩; revert b; decide

theorem rdSnap (s b : BitVec 4) : Statement (.rdSnap s b) := by
  refine ⟨opcodeMap[11], List.getElem_mem _, ?_⟩; revert s b; decide

theorem rdRk (k b : BitVec 4) : Statement (.rdRk k b) := by
  refine ⟨opcodeMap[12], List.getElem_mem _, ?_⟩; revert k b; decide

end Sys2Proof.Laws.EncodesItsRow
end

