-- ==== Sys2Proof/Laws/Pipeline.lean ====
section
/-! SUPPORT. What each part of the encryption sequence does to its trace. -/

namespace Sys2Proof.Machine

/-- A whole round with its round key: SubBytes, ShiftRows, MixColumns, AddRoundKey (R192). -/
def fullRound (rk : MatrixStore) (m : ByteMatrix) (k : Fin 11) : ByteMatrix :=
  addRoundKey (mixColumns (shiftRows (subBytes m))) (rk.get k)

/-- Round 1 records a snapshot after each of its transforms (R191). -/
theorem middleRound_one (rk : MatrixStore) (m : ByteMatrix) (snaps : List ByteMatrix) :
    middleRound rk ⟨m, snaps⟩ 1 =
      ⟨fullRound rk m 1,
        snaps ++ [subBytes m, shiftRows (subBytes m), mixColumns (shiftRows (subBytes m)),
          fullRound rk m 1]⟩ := by
  simp [middleRound, snapInRoundOne, snapTrace, stepTrace, fullRound]

/-- The later rounds are computed in full and record nothing (R192). -/
theorem middleRound_later (rk : MatrixStore) (t : Trace) {round : Fin 11} (h : round ≠ 1) :
    middleRound rk t round = { t with st := fullRound rk t.st round } := by
  simp [middleRound, snapInRoundOne, stepTrace, fullRound, h]

theorem foldl_middleRound_later (rk : MatrixStore) (ks : List (Fin 11)) (t : Trace)
    (h : ∀ k ∈ ks, k ≠ 1) :
    ks.foldl (middleRound rk) t = { t with st := ks.foldl (fullRound rk) t.st } := by
  induction ks generalizing t with
  | nil => rfl
  | cons k ks ih =>
    rw [List.foldl_cons, middleRound_later _ _ (h k (by simp)), ih _ fun j hj => h j (by simp [hj])]
    rfl

/-- The opening records the input and the first AddRoundKey (R191). -/
theorem openingTrace_eq (p : ByteMatrix) (rk : MatrixStore) :
    openingTrace p rk = ⟨addRoundKey p (rk.get 0), [p, addRoundKey p (rk.get 0)]⟩ := by
  simp [openingTrace, snapTrace, stepTrace]

/-- The closing records five snapshots, the last two alike (R191, R193). -/
theorem closingTrace_eq (rk : MatrixStore) (m : ByteMatrix) (snaps : List ByteMatrix) :
    closingTrace rk ⟨m, snaps⟩ =
      let c := addRoundKey (shiftRows (subBytes m)) (rk.get 10)
      ⟨c, snaps ++ [m, subBytes m, shiftRows (subBytes m), c, c]⟩ := by
  simp [closingTrace, snapTrace, stepTrace]

end Sys2Proof.Machine
end

