-- ==== Sys2Proof/Tests/Slice0.lean ====
section
/-! SUPPORT. The model's own tests, and for each statement with hypotheses a witness that meets them together.
Every expected value is from spec/95_test_vectors.md (sections named V1 to V11 and 2.1 to 2.8) or from
spec/30_encoding.md R83; no value was taken from the model. -/

namespace Sys2Proof.Tests

open Sys2Proof Sys2Proof.Machine

/-! ## Helpers -/

/-- A buffer from its bytes, byte 0 first (R19). -/
def blockOf (bs : List Byte) : Block := Vector.ofFn fun n => bs.getD n.val 0

/-- `000102030405060708090a0b0c0d0e0f`. -/
def ramp : Block := Vector.ofFn fun n => BitVec.ofNat 8 n.val

/-- `00112233445566778899aabbccddeeff`. -/
def katPlaintext : Block := Vector.ofFn fun n => BitVec.ofNat 8 (17 * n.val)

/-- A state after reset whose two inputs hold the known-answer block and key, with the counts given. -/
def withCounts (pt key : Fin 18) : State :=
  { State.reset with ptb := katPlaintext, ptCnt := pt, keyb := ramp, keyCnt := key }

/-- The start state `S16` of the vectors. -/
def s16 : State := withCounts 16 16

/-- The state a command leaves, none where it does not complete. -/
def after (i : Instr) (s : State) : Option State :=
  match exec i s with
  | .next t => some t
  | .fault _ => none
  | .refused _ => none

/-- The start state `SRUN` of the vectors. -/
def sRun : State := (after .run s16).getD State.reset

/-- `STATUS` after a command. -/
def statusAfter (i : Instr) (s : State) : Option Word := (after i s).map statusWord

/-- `STATUS` and `RDATA` after a command. -/
def seenAfter (i : Instr) (s : State) : Option (Word × Byte) :=
  (after i s).map fun t => (statusWord t, t.rdata)

/-- A state after reset whose `STATE` is a block's matrix. -/
def holding (bs : List Byte) : State := { State.reset with state := toMatrix (blockOf bs) }

/-- The bytes of `STATE` after a command. -/
def stateAfter (i : Instr) (s : State) : Option (List Byte) :=
  (after i s).map fun t => (toBuffer t.state).toList

/-! ## Decoding (section 2.1, R83) -/

theorem test_decode_load_words :
    decode 0x01000000 = .command .clr ∧ decode 0x020000a5 = .command (.ptPush 0xa5)
    ∧ decode 0x0300000f = .command (.keyPush 0x0f) ∧ decode 0x20000000 = .command .ldst := by decide

theorem test_decode_pipeline_words :
    decode 0x10000000 = .command .run ∧ decode 0x21000000 = .command .expand := by decide

theorem test_decode_transform_words :
    decode 0x30000000 = .command .sub ∧ decode 0x31000000 = .command .shr
    ∧ decode 0x32000000 = .command .mix ∧ decode 0x33000000 = .command (.ark 0)
    ∧ decode 0x3300a000 = .command (.ark 10) ∧ decode 0x3300b000 = .command (.ark 11) := by decide

theorem test_decode_read_words :
    decode 0x40000f00 = .command (.rdState 15) ∧ decode 0x4100a300 = .command (.rdSnap 10 3)
    ∧ decode 0x42001000 = .command (.rdRk 1 0) ∧ decode 0x4200af00 = .command (.rdRk 10 15) := by
  decide

theorem test_decode_unassigned_opcodes :
    decode 0x00000000 = .illegal .unknownOpcode ∧ decode 0x04000000 = .illegal .unknownOpcode
    ∧ decode 0x43000000 = .illegal .unknownOpcode ∧ decode 0xff000000 = .illegal .unknownOpcode := by
  decide

theorem test_decode_nonzero_reserved_fields :
    decode 0x10000001 = .illegal .nonzeroReservedField
    ∧ decode 0x30010000 = .illegal .nonzeroReservedField
    ∧ decode 0x020001a5 = .illegal .nonzeroReservedField
    ∧ decode 0x33000001 = .illegal .nonzeroReservedField
    ∧ decode 0x40001000 = .illegal .nonzeroReservedField := by decide

theorem test_table_words :
    decodeTableWord 32 0x33005000 = some (.ark 5) ∧ decodeTableWord 32 0x33000001 = none := by decide

/-- A word placed with `withFetchWord` is what the first step after reset runs (SUB, section 2.5). -/
theorem test_step_runs_the_placed_word :
    (match step (State.reset.withFetchWord 32 0x30000000) with
      | .next t => some (toBuffer t.state).toList
      | .fault _ => none
      | .refused _ => none) = some (List.replicate 16 0x63) := by decide +kernel

/-! ## The assembler's checks (R81, R82), each refusing an ill-formed line -/

theorem test_wellFormed_refuses_wide_data :
    (AsmLine.ptPush 256).wellFormed = false ∧ (AsmLine.keyPush 256).wellFormed = false
    ∧ (AsmLine.ptPush 255).wellFormed = true := by decide

theorem test_wellFormed_refuses_wide_indices :
    (AsmLine.ark 16).wellFormed = false ∧ (AsmLine.rdState 16).wellFormed = false
    ∧ (AsmLine.rdSnap 16 0).wellFormed = false ∧ (AsmLine.rdSnap 0 16).wellFormed = false
    ∧ (AsmLine.rdRk 16 0).wellFormed = false ∧ (AsmLine.rdRk 0 16).wellFormed = false
    ∧ (AsmLine.readSnap 16).wellFormed = false ∧ (AsmLine.readRk 16).wellFormed = false
    ∧ (AsmLine.round 16).wellFormed = false ∧ (AsmLine.ark 15).wellFormed = true := by decide

theorem test_wellFormed_refuses_short_or_wrong_hex :
    (AsmLine.ptLoad (List.replicate 31 0)).wellFormed = false
    ∧ (AsmLine.ptLoad (List.replicate 32 16)).wellFormed = false
    ∧ (AsmLine.keyLoad (List.replicate 33 0)).wellFormed = false
    ∧ (AsmLine.encrypt (List.replicate 32 0) (List.replicate 31 0)).wellFormed = false
    ∧ (AsmLine.encrypt (List.replicate 31 0) (List.replicate 32 0)).wellFormed = false
    ∧ (AsmLine.keyLoad (List.replicate 32 15)).wellFormed = true := by decide

/-- Lines of program P2 and P4, from text to words. -/
theorem test_assemble_text :
    assembleText "ROUND 9".toList = some [0x30000000, 0x31000000, 0x32000000, 0x33009000]
    ∧ assembleText "RD_RK 10, 15 ; last byte".toList = some [0x4200af00]
    ∧ assembleText "PT_PUSH 0xa5".toList = some [0x020000a5]
    ∧ assembleText "ARK 16".toList = none := by decide

/-! ## One command on a small state -/

/-- Section 2.8: CLR after SRUN. -/
theorem test_clr_clears_everything : seenAfter .clr sRun = some (0x00000000, 0x00) := by decide +kernel

/-- Section 2.2: the 17th push saturates the count, and its byte is discarded (R100). -/
theorem test_ptPush_saturates :
    statusAfter (.ptPush 0x5a) (withCounts 16 0) = some 0x00110000
    ∧ (after (.ptPush 0x5a) (withCounts 16 0)).map (·.ptb) = some katPlaintext := by decide +kernel

/-- R100: the 16th push fills byte 15. -/
theorem test_ptPush_fills_the_last_byte :
    (after (.ptPush 0x5a) (withCounts 15 0)).map (fun t => (t.ptb.get 14, t.ptb.get 15))
      = some (0xee, 0x5a) := by decide +kernel

/-- Section 2.2: the 17th key push. -/
theorem test_keyPush_saturates :
    statusAfter (.keyPush 0x5a) (withCounts 0 16) = some 0x11000000
    ∧ (after (.keyPush 0x5a) (withCounts 0 16)).map (·.keyb) = some ramp := by decide +kernel

/-- R102: the first key push fills byte 0. -/
theorem test_keyPush_fills_the_first_byte :
    (after (.keyPush 0x5a) State.reset).map (fun t => (t.keyb.get 0, t.keyCnt)) = some (0x5a, 1) := by
  decide +kernel

/-- V1: the known-answer ciphertext, and the STATUS after it. -/
theorem test_run_known_answer :
    stateAfter .run s16 = some [0x69, 0xc4, 0xe0, 0xd8, 0x6a, 0x7b, 0x04, 0x30,
      0xd8, 0xcd, 0xb7, 0x80, 0x70, 0xb4, 0xc5, 0x5a]
    ∧ statusAfter .run s16 = some 0x00000b20 := by decide +kernel

/-- V8: a 15-byte plaintext with a 17-byte key; nothing is computed. -/
theorem test_run_reports_the_length :
    statusAfter .run (withCounts 15 17) = some 0x00000012
    ∧ stateAfter .run (withCounts 15 17) = some (List.replicate 16 0) := by decide +kernel

/-- V2: the block in byte order is the matrix in column-major order; LDST leaves 0x10000000 from S16 (2.3). -/
theorem test_ldst_loads_column_major :
    statusAfter .ldst s16 = some 0x10000000
    ∧ (after .ldst s16).map (fun t => (cell t.state 1 0, cell t.state 0 1)) = some (0x11, 0x44) := by
  decide +kernel

/-- Section 2.3: LDST after SRUN finds no plaintext. -/
theorem test_ldst_reports_the_length : statusAfter .ldst sRun = some 0x00000b32 := by decide +kernel

/-- V1, section 2.6: round key 10 of the known-answer key, and the STATUS after EXPAND from S16. -/
theorem test_expand_known_answer :
    (after .expand s16).map (fun t => (toBuffer (t.rks.get 10)).toList)
      = some [0x13, 0x11, 0x1d, 0x7f, 0xe3, 0x94, 0x4a, 0x17,
          0xf3, 0x07, 0xa7, 0x8b, 0x4d, 0x2b, 0x30, 0xc5]
    ∧ statusAfter .expand s16 = some 0x00100020 := by decide +kernel

/-- Section 2.6: EXPAND after SRUN clears RK_VALID and keeps SNAP_CNT. -/
theorem test_expand_reports_the_length : statusAfter .expand sRun = some 0x00000b12 := by decide +kernel

/-- Section 2.5: SUB. -/
theorem test_sub_vector :
    stateAfter .sub (holding [0x00, 0x01, 0x02, 0x03, 0x04, 0x05, 0x06, 0x07,
        0x08, 0x09, 0x0a, 0x0b, 0x0c, 0x0d, 0x0e, 0x0f])
      = some [0x63, 0x7c, 0x77, 0x7b, 0xf2, 0x6b, 0x6f, 0xc5,
          0x30, 0x01, 0x67, 0x2b, 0xfe, 0xd7, 0xab, 0x76] := by decide +kernel

/-- Section 2.5: SHR. -/
theorem test_shr_vector :
    stateAfter .shr (holding [0x63, 0xca, 0xb7, 0x04, 0x09, 0x53, 0xd0, 0x51,
        0xcd, 0x60, 0xe0, 0xe7, 0xba, 0x70, 0xe1, 0x8c])
      = some [0x63, 0x53, 0xe0, 0x8c, 0x09, 0x60, 0xe1, 0x04,
          0xcd, 0x70, 0xb7, 0x51, 0xba, 0xca, 0xd0, 0xe7] := by decide +kernel

/-- Section 2.5: MIX. -/
theorem test_mix_vector :
    stateAfter .mix (holding [0xdb, 0x13, 0x53, 0x45, 0xf2, 0x0a, 0x22, 0x5c,
        0x01, 0x01, 0x01, 0x01, 0xc6, 0xc6, 0xc6, 0xc6])
      = some [0x8e, 0x4d, 0xa1, 0xbc, 0x9f, 0xdc, 0x58, 0x9d,
          0x01, 0x01, 0x01, 0x01, 0xc6, 0xc6, 0xc6, 0xc6] := by decide +kernel

/-- Section 2.5: ARK 0 with the known-answer key on the known-answer plaintext. -/
theorem test_ark_vector :
    stateAfter (.ark 0) { State.reset with
        state := toMatrix katPlaintext, rkValid := true, rks := Vector.replicate 11 (toMatrix ramp) }
      = some [0x00, 0x10, 0x20, 0x30, 0x40, 0x50, 0x60, 0x70,
          0x80, 0x90, 0xa0, 0xb0, 0xc0, 0xd0, 0xe0, 0xf0] := by decide +kernel

/-- Section 2.5: ARK's two errors from reset; the index is checked first. -/
theorem test_ark_errors :
    statusAfter (.ark 0) State.reset = some 0x00000013
    ∧ statusAfter (.ark 11) State.reset = some 0x00000014 := by decide +kernel

/-- Section 2.3: RD_STATE 0 after SRUN. -/
theorem test_rdState_vector : seenAfter (.rdState 0) sRun = some (0x00000b20, 0x69) := by decide +kernel

/-- Section 2.3: RD_SNAP 6, 0 after SRUN. -/
theorem test_rdSnap_vector : seenAfter (.rdSnap 6 0) sRun = some (0x00000b20, 0xbd) := by decide +kernel

/-- Section 2.3: RD_SNAP out of range, after a RUN and after reset. -/
theorem test_rdSnap_errors :
    statusAfter (.rdSnap 11 0) sRun = some 0x00000b34
    ∧ seenAfter (.rdSnap 0 0) State.reset = some (0x00000014, 0x00) := by decide +kernel

/-- Section 2.3: RD_RK 10, 15 after SRUN. -/
theorem test_rdRk_vector : seenAfter (.rdRk 10 15) sRun = some (0x00000b20, 0xc5) := by decide +kernel

/-- Sections 2.3, 2.8: RD_RK's errors. -/
theorem test_rdRk_errors :
    statusAfter (.rdRk 11 0) sRun = some 0x00000b34
    ∧ statusAfter (.rdRk 0 0) State.reset = some 0x00000013
    ∧ statusAfter (.rdRk 12 0) State.reset = some 0x00000014 := by decide +kernel

/-- Section 2.1: an illegal word after SRUN. -/
theorem test_illegal_word :
    (match acceptWord 0x00000000 sRun with
      | .next t => some (statusWord t)
      | .fault _ => none
      | .refused _ => none) = some 0x00000b31 := by decide +kernel

/-- Section 2.4: products in the field and doublings. -/
theorem test_field_vectors :
    gmul 0x57 0x83 = 0xc1 ∧ gmul 0x57 0x13 = 0xfe ∧ gmul 0x02 0x87 = 0x15
    ∧ xtime 0xff = 0xe5 ∧ gmul 3 0x83 = 0x9e := by decide +kernel

/-- R195: the labels of snapshots 0, 6 and 10. -/
theorem test_snapshot_labels :
    snapshotLabel 0 = ⟨.input, 0, none⟩ ∧ snapshotLabel 6 = ⟨.roundComplete, 9, some 9⟩
    ∧ snapshotLabel 10 = ⟨.ciphertextMarker, 10, some 10⟩ := by decide

/-- R75: an idle core at an edge with CLR offered is busy after it, and not ready. -/
theorem test_port_accepts :
    (match edge ⟨true, true, 0x01000000⟩ PortCore.reset with
      | .next q => some (cmdReady q true, q.busy.map (·.word))
      | .fault _ => none
      | .refused _ => none) = some (false, some 0x01000000) := by rfl

/-! ## Witnesses: states and operands that meet a statement's hypotheses together -/

theorem witness_EveryLegalWordIsItsCommandsEncoding :
    decode 0x4200af00 = .command (.rdRk 10 15) := by decide

theorem witness_OpcodeMapHasThirteenDisjointRows :
    ∃ r₁ ∈ opcodeMap, ∃ r₂ ∈ opcodeMap,
      r₁.matchesWord 0x33005000 = true ∧ r₂.matchesWord 0x33005000 = true := by decide

theorem witness_IllegalWordsExactlyAndTheirEffect :
    (∃ w why, decode w = .illegal why ∧ fieldRsv w ≠ 0)
    ∧ ∃ w why, decode w = .illegal why ∧ fieldOpc w = 0x43 :=
  ⟨⟨0x30010000, .nonzeroReservedField, by decide⟩, ⟨0x43000000, .unknownOpcode, by decide⟩⟩

theorem witness_StepRunsTheDecodedCommand :
    ∃ (s : State) (w : Word) (rest : List HostEvent) (i : Instr),
      s.host = .cmd w :: rest ∧ decode w = .command i :=
  ⟨offerWord 0x3300a000 s16, 0x3300a000, [], .ark 10, by decide⟩

theorem witness_EveryWordHasItsDefinedNextState :
    (∃ w i, decode w = .command i) ∧ ∃ w why, decode w = .illegal why :=
  ⟨⟨0x33000000, .ark 0, by decide⟩, ⟨0x33000001, .nonzeroReservedField, by decide⟩⟩

theorem witness_IdleCoreKeepsItsState : s16.host = [] := rfl

theorem witness_ResetLeavesTheResetValues :
    ∃ (p : PortCore) (pin : PortIn), pin.rstN = false ∧ p.busy ≠ none ∧ p.core.ptCnt = 16 :=
  ⟨⟨s16, some ⟨0x10000000, 3⟩⟩, ⟨false, true, 0x10000000⟩, by decide⟩

theorem witness_PtPushAppendsAByte :
    (withCounts 15 0).ptCnt.val < 16 ∧ 16 ≤ (withCounts 16 0).ptCnt.val
    ∧ 16 ≤ (withCounts 17 0).ptCnt.val := by decide

theorem witness_KeyPushAppendsAByte :
    (withCounts 0 15).keyCnt.val < 16 ∧ 16 ≤ (withCounts 0 16).keyCnt.val
    ∧ 16 ≤ (withCounts 0 17).keyCnt.val := by decide

theorem witness_PushOrderIsBufferOrder :
    ∃ (is : List Instr) (s t : State), (∀ i ∈ is, (∃ d, i = .ptPush d) ∨ ∃ d, i = .keyPush d)
      ∧ s.ptCnt = 0 ∧ s.keyCnt = 0 ∧ execAll is s = .next t :=
  ⟨[.ptPush 1, .keyPush 2, .ptPush 3], State.reset, _, by simp, rfl, rfl, rfl⟩

theorem witness_OverSupplyStaysUntilConsumedOrCleared :
    ∃ (is : List Instr) (s t : State), execAll is s = .next t ∧ .clr ∉ is ∧ .run ∉ is
      ∧ s.ptCnt = 17 ∧ .ldst ∉ is ∧ s.keyCnt = 17 ∧ .expand ∉ is :=
  ⟨[.ptPush 1, .sub], withCounts 17 17, _, rfl, by decide⟩

theorem witness_LdstLoadsThePlaintext :
    (withCounts 16 0).ptCnt = 16 ∧ (withCounts 15 0).ptCnt ≠ 16 ∧ (withCounts 17 0).ptCnt ≠ 16 := by
  decide

theorem witness_ConsumersCheckAndClearTheirCounts :
    (∃ t, exec .ldst (withCounts 17 0) = .next t ∧ (withCounts 17 0).ptCnt ≠ 16)
    ∧ (∃ t, exec .expand (withCounts 0 15) = .next t ∧ (withCounts 0 15).keyCnt ≠ 16)
    ∧ ∃ t, exec .run s16 = .next t ∧ s16.ptCnt = 16 ∧ s16.keyCnt = 16 :=
  ⟨⟨_, rfl, by decide⟩, ⟨_, rfl, by decide⟩, ⟨_, rfl, rfl, rfl⟩⟩

/-- The boundary of the index: 10 and 11 with eleven snapshots, 0 with none. -/
theorem witness_RdSnapReadsAByteOrReportsTheIndex :
    (10 : BitVec 4).toNat < sRun.snapCnt.val ∧ sRun.snapCnt.val ≤ (11 : BitVec 4).toNat
    ∧ State.reset.snapCnt.val ≤ (0 : BitVec 4).toNat := by decide +kernel

theorem witness_RdRkReadsAByteOrReportsTheError :
    ((10 : BitVec 4).toNat ≤ 10 ∧ sRun.rkValid = true)
    ∧ ((10 : BitVec 4).toNat ≤ 10 ∧ State.reset.rkValid = false)
    ∧ 10 < (11 : BitVec 4).toNat := by decide +kernel

theorem witness_HostReadsBackThePushedBlock : State.reset.ptCnt = 0 ∧ sRun.ptCnt = 0 := by
  decide +kernel

theorem witness_ArkAddsTheRoundKeyOrReportsTheError :
    ((0 : BitVec 4).toNat ≤ 10 ∧ sRun.rkValid = true)
    ∧ ((10 : BitVec 4).toNat ≤ 10 ∧ State.reset.rkValid = false)
    ∧ 10 < (15 : BitVec 4).toNat := by decide +kernel

theorem witness_TransformsActLaneByLane :
    ∃ m m' : ByteMatrix, m ≠ m' ∧ matrixByte m 0 = matrixByte m' 0
      ∧ ∀ r, matrixByte m (byteIndexOf r 0) = matrixByte m' (byteIndexOf r 0) :=
  ⟨zeroMatrix, toMatrix (blockOf [0, 0, 0, 0, 1]), by decide +kernel⟩

theorem witness_SBoxTableIsTheConstruction : (0xff : Byte) ≠ 0 := by decide

theorem witness_ExpandedKeyMeetsTheRecurrence : 4 ≤ 4 ∧ 4 < 44 ∧ 4 ≤ 43 ∧ 43 < 44 := by decide

theorem witness_RoundKeyZeroIsTheKey : s16.keyCnt = 16 := rfl

theorem witness_ExpandWritesTheSchedule :
    s16.keyCnt = 16 ∧ (withCounts 0 15).keyCnt ≠ 16 ∧ (withCounts 0 17).keyCnt ≠ 16 := by decide

theorem witness_ExpansionDependsOnTheKeyAlone :
    ∃ s s' t t' : State, s ≠ s' ∧ s.keyCnt = 16 ∧ s'.keyCnt = 16
      ∧ (∀ n, n < 16 → memRead .keyb n s = memRead .keyb n s')
      ∧ exec .expand s = .next t ∧ exec .expand s' = .next t' :=
  ⟨s16, withCounts 0 16, _, _, by decide +kernel, rfl, rfl, fun _ _ => rfl, rfl, rfl⟩

theorem witness_RunEncryptsOrReportsTheLength :
    (s16.ptCnt = 16 ∧ s16.keyCnt = 16)
    ∧ ((withCounts 15 16).ptCnt ≠ 16 ∨ (withCounts 15 16).keyCnt ≠ 16)
    ∧ ((withCounts 16 17).ptCnt ≠ 16 ∨ (withCounts 16 17).keyCnt ≠ 16) := by decide

theorem witness_KnownAnswerCiphertext :
    s16.ptCnt = 16 ∧ s16.keyCnt = 16
    ∧ s16.ptb.toList = [0x00, 0x11, 0x22, 0x33, 0x44, 0x55, 0x66, 0x77,
        0x88, 0x99, 0xaa, 0xbb, 0xcc, 0xdd, 0xee, 0xff]
    ∧ s16.keyb.toList = [0x00, 0x01, 0x02, 0x03, 0x04, 0x05, 0x06, 0x07,
        0x08, 0x09, 0x0a, 0x0b, 0x0c, 0x0d, 0x0e, 0x0f] := by decide +kernel

theorem witness_RunRecordsElevenSnapshots : ∃ s t : State, exec .run s = .next t ∧ t.errCode = .ok :=
  ⟨s16, _, rfl, rfl⟩

theorem witness_CiphertextIsInStateAndLastSnapshots : s16.ptCnt = 16 ∧ s16.keyCnt = 16 := by decide

theorem witness_RunForgetsThePast :
    ∃ s s' t t' : State, s ≠ s'
      ∧ (∀ n, n < 16 → memRead .ptb n s = memRead .ptb n s')
      ∧ (∀ n, n < 16 → memRead .keyb n s = memRead .keyb n s')
      ∧ exec .run s = .next t ∧ exec .run s' = .next t' ∧ t.errCode = .ok ∧ t'.errCode = .ok :=
  ⟨s16, { s16 with state := toMatrix ramp, errSticky := true }, _, _, by decide +kernel,
    fun _ _ => rfl, fun _ _ => rfl, rfl, rfl, rfl, rfl⟩

theorem witness_SingleStepsDoWhatRunDoes : s16.ptCnt = 16 ∧ s16.keyCnt = 16 := by decide

theorem witness_EveryWordReportsItsError :
    (∃ t, acceptWord 0x33000000 State.reset = .next t)
    ∧ ∃ t, acceptWord 0x33000001 State.reset = .next t := ⟨⟨_, rfl⟩, ⟨_, rfl⟩⟩

theorem witness_StickyBitTellsWhetherAnyCommandFailed :
    (∃ w s t, acceptWord w s = .next t ∧ t.errCode ≠ .ok)
    ∧ (∃ w s t, acceptWord w s = .next t ∧ decode w ≠ .command .clr ∧ t.errCode = .ok)
    ∧ (∃ e s t, hostEvent e s = .next t ∧ s.errSticky = true ∧ t.errSticky = false)
    ∧ ∃ ws s r, runProgram ws s = .next r ∧ ws ≠ []
        ∧ (∀ w ∈ ws, decode w ≠ .command .clr) ∧ r.final.errSticky = false :=
  ⟨⟨0x00000000, s16, _, rfl, by decide⟩, ⟨0x31000000, s16, _, rfl, by decide, rfl⟩,
    ⟨.cmd 0x01000000, { s16 with errSticky := true }, _, rfl, rfl, rfl⟩,
    ⟨[0x20000000], s16, _, rfl, by decide, List.forall_mem_singleton.mpr (by decide), rfl⟩⟩

/-- A read-out command meets the hypotheses about all but `RDATA`, SUB those about `RDATA`, and a failing RUN the
hypotheses about errors. -/
theorem witness_WriteMatrix :
    (∃ w why s t, decode w = .illegal why ∧ acceptWord w s = .next t)
    ∧ (∃ s t, exec (.ptPush 7) s = .next t ∧ 14 ≠ s.ptCnt.val)
    ∧ (∃ s t, exec (.keyPush 7) s = .next t ∧ 15 ≠ s.keyCnt.val)
    ∧ (∃ i s t, exec i s = .next t ∧ (∀ d, i ≠ .ptPush d) ∧ (∀ d, i ≠ .keyPush d) ∧ (∀ k, i ≠ .ark k)
      ∧ i ∉ [.clr, .run, .ldst, .expand, .sub, .shr, .mix] ∧ t.errCode = .ok)
    ∧ (∃ i s t, exec i s = .next t ∧ (∀ b, i ≠ .rdState b) ∧ (∀ n b, i ≠ .rdSnap n b)
      ∧ (∀ k b, i ≠ .rdRk k b) ∧ i ≠ .clr)
    ∧ ∃ s t, exec .run s = .next t ∧ t.errCode ≠ .ok :=
  ⟨⟨0x00000000, .unknownOpcode, s16, _, by decide, rfl⟩, ⟨withCounts 15 0, _, rfl, by decide⟩,
    ⟨s16, _, rfl, by decide⟩,
    ⟨.rdState 3, s16, _, rfl, by decide, by decide, by decide, by decide, rfl⟩,
    ⟨.sub, s16, _, rfl, by decide, by decide, by decide, by decide⟩,
    ⟨withCounts 17 16, _, rfl, by decide +kernel⟩⟩

theorem witness_ResultsLastUntilTheirNextWriter :
    (∃ ws s r, runProgram ws s = .next r ∧ ws ≠ []
      ∧ ∀ w ∈ ws, decode w ≠ .command .run ∧ decode w ≠ .command .clr
        ∧ decode w ≠ .command .expand) :=
  ⟨[0x20000000], s16, _, rfl, by decide, List.forall_mem_singleton.mpr (by decide)⟩

theorem witness_SnapshotCountIsZeroOrEleven :
    (∃ t, exec .clr sRun = .next t) ∧ (∃ t, exec .run s16 = .next t ∧ t.errCode = .ok)
    ∧ (∃ t, exec .run State.reset = .next t ∧ t.errCode ≠ .ok)
    ∧ (∃ t, exec (.rdSnap 10 0) sRun = .next t)
    ∧ ∃ s t, Reachable s ∧ step s = .next t ∧ Reachable t := by
  refine ⟨⟨_, rfl⟩, ⟨_, rfl, rfl⟩, ⟨_, rfl, by decide +kernel⟩, ⟨_, rfl⟩, ?_⟩
  obtain ⟨t, h⟩ : ∃ t, step { State.reset with host := [.cmd 0x31000000] } = .next t := ⟨_, rfl⟩
  exact ⟨_, t, .atReset _, h, .afterStep _ t (.atReset _) h⟩

theorem witness_UnreadableContentsNeverShow :
    ∃ s s' t : State, s ≠ s' ∧ SameReadable s s' ∧ step s = .next t :=
  ⟨offerWord 0x20000000 (withCounts 15 0),
    { offerWord 0x20000000 (withCounts 15 0) with keyb := zeroBlock }, _, by decide +kernel,
    { ptCnt := rfl, keyCnt := rfl, state := rfl, rkValid := rfl, snapCnt := rfl, rdata := rfl,
      errCode := rfl, errSticky := rfl, host := rfl, ptb := fun _ _ => rfl,
      keyb := fun _ h => absurd h (by simp [offerWord, withCounts]),
      rks := fun _ => rfl, snb := fun _ _ => rfl }, rfl⟩

/-- The state after the known-answer RUN, with a schedule and snapshots to keep valid. -/
theorem witness_EveryStepKeepsTheInvariant :
    ∃ s t : State, CoreInvariant s ∧ s.rkValid = true ∧ s.snapCnt = 11 ∧ step s = .next t :=
  ⟨offerWord 0x31000000 sRun, _,
    { stickyRecordsError := fun h => absurd rfl h
      snapshotCount := .inr rfl
      validSchedule := by decide +kernel
      validSnapshots := fun _ => ⟨toMatrix katPlaintext, toMatrix ramp, rfl⟩ }, rfl, rfl, rfl⟩

theorem witness_BusyPortIgnoresOffers :
    ∃ (p : PortCore) (b : InProgress), p.busy = some b := ⟨⟨s16, some ⟨0x10000000, 1⟩⟩, _, rfl⟩

/-- The two clauses: no edge after acceptance yet, and exactly as many as the command takes. -/
theorem witness_AcceptedCommandCompletesInItsLatency :
    ∃ (p : PortCore) (pin : PortIn) (pins : List PortIn), acceptsAt p pin = true
      ∧ (∀ e ∈ pins, e.rstN = true)
      ∧ ([] : List PortIn).length < Config.cmdLatency (fieldOpc pin.cmd)
      ∧ pins.length = Config.cmdLatency (fieldOpc pin.cmd) :=
  ⟨PortCore.reset, ⟨true, true, 0x10000000⟩,
    List.replicate (Config.cmdLatency (fieldOpc 0x10000000)) ⟨true, false, 0⟩, rfl,
    fun _ h => by rw [List.eq_of_mem_replicate h], Nat.succ_pos _, List.length_replicate⟩

theorem witness_ResetAbortsTheCommandInProgress :
    ∃ (p p' : PortCore) (pin : PortIn), pin.rstN = false ∧ p'.core = p.core ∧ p'.busy ≠ p.busy :=
  ⟨⟨s16, none⟩, ⟨s16, some ⟨0x10000000, 2⟩⟩, ⟨false, false, 0⟩, by decide⟩

theorem witness_PortRefinesTheCommandLevel :
    ∃ (pins : List PortIn) (p q : PortCore), edgeAll pins p = .next q ∧ edgeEvents pins p ≠ [] :=
  ⟨[⟨true, false, 0⟩, ⟨false, false, 0⟩], ⟨s16, some ⟨0x31000000, 1⟩⟩, _, rfl, by decide⟩

/-- The bound's last value for a round, as the words program P2's lines show for 1 to 9. -/
theorem witness_PseudoInstructionsExpand :
    (15 ≤ 15) ∧ assembleLine (.round 15)
      = some [0x30000000, 0x31000000, 0x32000000, 0x3300f000] := by decide

end Sys2Proof.Tests
end

/-! The statements of spec/00_scope.md: a step runs the decoded command, an accepted command completes in its
latency, and the port refines the command-level machine. -/

namespace Sys2Proof.Machine

/-! ## The host's list and the commands -/

/-- No command reads or writes the host's list (R35): its effect is the same under every list. -/
theorem exec_with_host {i : Instr} {s t : State} (h : exec i s = .next t) (host : List HostEvent) :
    exec i { s with host := host } = .next { t with host := host } := by
  cases i with
  | clr => obtain rfl := execClr_next.mp h; exact execClr_next.mpr rfl
  | ptPush d => obtain rfl := execPtPush_next.mp h; exact execPtPush_next.mpr rfl
  | keyPush d => obtain rfl := execKeyPush_next.mp h; exact execKeyPush_next.mpr rfl
  | sub => obtain rfl := execSub_next.mp h; exact execSub_next.mpr rfl
  | shr => obtain rfl := execShr_next.mp h; exact execShr_next.mpr rfl
  | mix => obtain rfl := execMix_next.mp h; exact execMix_next.mpr rfl
  | rdState b => obtain rfl := execRdState_next.mp h; exact execRdState_next.mpr rfl
  | run =>
    obtain rfl := execRun_next.mp h
    refine execRun_next.mpr ?_
    dsimp only
    generalize encrypt (toMatrix s.ptb) (toMatrix s.keyb) = result
    split <;> rfl
  | ldst => obtain rfl := execLdst_next.mp h; refine execLdst_next.mpr ?_; dsimp only; split <;> rfl
  | expand =>
    obtain rfl := execExpand_next.mp h; refine execExpand_next.mpr ?_; dsimp only; split <;> rfl
  | rdSnap n b =>
    obtain rfl := execRdSnap_next.mp h; refine execRdSnap_next.mpr ?_; dsimp only; split <;> rfl
  | ark k =>
    obtain rfl := execArk_next.mp h
    refine execArk_next.mpr ?_
    dsimp only
    cases roundKeyOperand k with
    | none => rfl
    | some n => cases s.rkValid <;> rfl
  | rdRk k b =>
    obtain rfl := execRdRk_next.mp h
    refine execRdRk_next.mpr ?_
    dsimp only
    cases roundKeyOperand k with
    | none => rfl
    | some n => cases s.rkValid <;> rfl

theorem acceptWord_with_host {w : Word} {s t : State} (h : acceptWord w s = .next t)
    (host : List HostEvent) :
    acceptWord w { s with host := host } = .next { t with host := host } := by
  cases hw : decode w with
  | command i =>
    rw [acceptWord_of_command hw] at h ⊢
    exact exec_with_host h host
  | illegal why =>
    rw [acceptWord_of_illegal hw] at h ⊢
    obtain rfl := Host.Outcome.next.inj h
    rfl

theorem hostEvent_with_host {e : HostEvent} {s t : State} (h : hostEvent e s = .next t)
    (host : List HostEvent) :
    hostEvent e { s with host := host } = .next { t with host := host } := by
  cases e with
  | cmd w => exact acceptWord_with_host h host
  | reset => obtain rfl := Host.Outcome.next.inj h; rfl

/-- A step takes the first event off the host's list and has its effect, whatever list the event's effect was
computed under. -/
theorem step_with_host_cons {e : HostEvent} {s t : State} (h : hostEvent e s = .next t)
    (rest : List HostEvent) :
    step { s with host := e :: rest } = .next { t with host := rest } :=
  (step_of_host_cons _ rfl).trans (hostEvent_with_host h rest)

/-- A run whose first step completes goes on from the state that step leaves. -/
theorem core_run_succ {s t : State} (h : step s = .next t) (k : Nat) :
    Host.Core.run Sys2Proof.core (k + 1) s = Host.Core.run Sys2Proof.core k t := by
  have hstep : Sys2Proof.core.step s = .next t := h
  simp only [Host.Core.run, hstep]

/-- Settles O6: the step takes the offered word off the list and accepts it, and accepting a word that decodes
to a command is that command's `exec`. -/
theorem stepRunsTheDecodedCommand : Obligations.StepRunsTheDecodedCommand := by
  refine ⟨fun s w rest i hs hw => ?_, fun s w i hw => ?_⟩
  · rw [step_of_host_cons s hs]
    exact acceptWord_of_command hw _
  · rw [step_offerWord, acceptWord_of_command hw]

/-! ## Lists of edges -/

theorem edgeAll_cons {p q : PortCore} {pin : PortIn} (h : edge pin p = .next q)
    (pins : List PortIn) : edgeAll (pin :: pins) p = edgeAll pins q := by
  simp [edgeAll, h]

/-- A list of edges that completes does so by its first edge and then the others. -/
theorem edgeAll_cons_next {p q : PortCore} {pin : PortIn} {pins : List PortIn}
    (h : edgeAll (pin :: pins) p = .next q) :
    ∃ r, edge pin p = .next r ∧ edgeAll pins r = .next q := by
  cases hr : edge pin p with
  | next r => exact ⟨r, rfl, by rwa [edgeAll_cons hr] at h⟩
  | fault f => cases f
  | refused f => simp [edgeAll, hr] at h

theorem edgeEvents_cons {p q : PortCore} {pin : PortIn} (h : edge pin p = .next q)
    (pins : List PortIn) :
    edgeEvents (pin :: pins) p = (edgeEvent p pin).toList ++ edgeEvents pins q := by
  simp [edgeEvents, h]

/-! ## The refinement -/

/-- Settles O57, by induction on the edges: an edge without an event leaves the core as it is, and an edge with
one has the effect of the command-level step that takes this event off the host's list. -/
theorem portRefinesTheCommandLevel : Obligations.PortRefinesTheCommandLevel := by
  intro pins
  induction pins with
  | nil =>
    intro p q rest h
    obtain rfl := Host.Outcome.next.inj h
    rfl
  | cons pin pins ih =>
    intro p q rest h
    obtain ⟨r, hr, hrest⟩ := edgeAll_cons_next h
    rw [edgeEvents_cons hr]
    obtain ⟨-, ⟨hnone, hcore⟩ | ⟨e, hsome, hcore⟩⟩ := edge_cases hr
    · rw [hnone, ← hcore]
      exact ih r q rest hrest
    · rw [hsome]
      exact (core_run_succ (step_with_host_cons hcore _) _).trans (ih r q rest hrest)

/-! ## A command in progress -/

/-- The edge that accepts a word starts its latency and leaves the core as it is (R70, R264). -/
theorem edge_of_accepts {p : PortCore} {pin : PortIn} (h : acceptsAt p pin = true) :
    edge pin p = .next ⟨p.core, some ⟨pin.cmd, Config.cmdLatency (fieldOpc pin.cmd)⟩⟩ := by
  obtain ⟨⟨hrst, hidle⟩, hvalid⟩ :
      (pin.rstN = true ∧ p.busy = none) ∧ pin.cmdValid = true := by
    simpa [acceptsAt, cmdReady] using h
  rw [edge_of_no_event (by simp [edgeEvent, hrst, hidle])]
  simp [edgeBusy, hrst, hidle, hvalid]

/-- Before the last edge of a command's latency only the cycles left change (R75, log entry 12). -/
theorem edge_of_waiting {pin : PortIn} (hrst : pin.rstN = true) (s : State) (w : Word) {n : Nat}
    (h : 1 < n) : edge pin ⟨s, some ⟨w, n⟩⟩ = .next ⟨s, some ⟨w, n - 1⟩⟩ := by
  have hn : ¬ n ≤ 1 := by omega
  rw [edge_of_no_event (by simp [edgeEvent, hrst, hn])]
  simp [edgeBusy, hrst, hn]

/-- The last edge of a command's latency completes it with its whole effect (R75). -/
theorem edge_of_last {pin : PortIn} (hrst : pin.rstN = true) {s t : State} {w : Word}
    (ht : acceptWord w s = .next t) : edge pin ⟨s, some ⟨w, 1⟩⟩ = .next ⟨t, none⟩ := by
  rw [edge_of_event (p := ⟨s, some ⟨w, 1⟩⟩) (e := .cmd w) (by simp [edgeEvent, hrst]) ht]
  simp [edgeBusy, hrst]

/-- A command is still in progress after fewer edges than it has left. -/
theorem edgeAll_of_waiting (s : State) (w : Word) {pins : List PortIn} {n : Nat}
    (hrst : ∀ e ∈ pins, e.rstN = true) (h : pins.length < n) :
    edgeAll pins ⟨s, some ⟨w, n⟩⟩ = .next ⟨s, some ⟨w, n - pins.length⟩⟩ := by
  induction pins generalizing n with
  | nil => rfl
  | cons pin pins ih =>
    obtain ⟨hpin, hpins⟩ := List.forall_mem_cons.mp hrst
    rw [List.length_cons] at h ⊢
    rw [edgeAll_cons (edge_of_waiting hpin s w (by omega)), ih hpins (by omega),
      Nat.sub_sub, Nat.add_comm 1]

/-- A command completes after as many edges as it has left. -/
theorem edgeAll_of_last {s t : State} {w : Word} (ht : acceptWord w s = .next t)
    (pins : List PortIn) {pin : PortIn} (hrst : ∀ e ∈ pin :: pins, e.rstN = true) :
    edgeAll (pin :: pins) ⟨s, some ⟨w, pins.length + 1⟩⟩ = .next ⟨t, none⟩ := by
  induction pins generalizing pin with
  | nil => exact edgeAll_cons (edge_of_last (hrst pin (by simp)) ht) []
  | cons pin' pins ih =>
    obtain ⟨hpin, hpins⟩ := List.forall_mem_cons.mp hrst
    rw [edgeAll_cons (edge_of_waiting hpin s w (by simp))]
    exact ih hpins

/-- Settles O55: acceptance starts the word's latency; fewer edges than that leave the command in progress, and
exactly as many complete it. -/
theorem acceptedCommandCompletesInItsLatency :
    Obligations.AcceptedCommandCompletesInItsLatency := by
  intro p pin pins hacc hrst hle
  rw [edgeAll_cons (edge_of_accepts hacc)]
  rcases hle.lt_or_eq with hlt | heq
  · exact ⟨_, edgeAll_of_waiting p.core pin.cmd hrst hlt, fun _ => ⟨rfl, rfl⟩,
      fun heq => absurd heq hlt.ne⟩
  · obtain ⟨t, ht⟩ := acceptWord_completes pin.cmd p.core
    have hdone : edgeAll pins ⟨p.core, some ⟨pin.cmd, pins.length⟩⟩ = .next ⟨t, none⟩ := by
      cases pins with
      | nil => exact absurd heq (Nat.succ_ne_zero _).symm
      | cons pin' pins => exact edgeAll_of_last ht pins hrst
    exact ⟨_, heq ▸ hdone, fun hlt => absurd heq hlt.ne, fun _ => ⟨ht, rfl⟩⟩

end Sys2Proof.Machine

/-! The statements of spec/10_state.md: the STATUS word, the errors and the sticky bit, what a command writes and
how long results last, the core's invariant, and that unspecified contents never show. -/

namespace Sys2Proof.Machine

/-! ## All that a command can do -/

/-- What a command writes when it fails: a consumer clears the counts it consumes, EXPAND and RUN also clear the
valid flags of the results they would have written, and no other command writes anything (R224). -/
def failureWrites (i : Instr) (s : State) : State :=
  match i with
  | .run => { s with ptCnt := 0, keyCnt := 0, snapCnt := 0, rkValid := false }
  | .ldst => { s with ptCnt := 0 }
  | .expand => { s with keyCnt := 0, rkValid := false }
  | _ => s

/-- The state a failing command leaves: its writes on failure, and the error it raises (R16, R222). -/
def failed (i : Instr) (s : State) : State :=
  { failureWrites i s with errCode := commandError i s, errSticky := true }

/-- `CompletesTo s i t`: command `i` ends without an error in `s` and leaves `t`. One rule per command, with what
the command's success tells about `s`. -/
inductive CompletesTo (s : State) : Instr → State → Prop
  | clr : CompletesTo s .clr { resetRegisters s with errCode := .ok }
  | ptPush (d : Byte) : CompletesTo s (.ptPush d)
      { s with ptb := (pushByte s.ptb s.ptCnt d).1, ptCnt := (pushByte s.ptb s.ptCnt d).2,
               errCode := .ok }
  | keyPush (d : Byte) : CompletesTo s (.keyPush d)
      { s with keyb := (pushByte s.keyb s.keyCnt d).1, keyCnt := (pushByte s.keyb s.keyCnt d).2,
               errCode := .ok }
  | run (hpt : s.ptCnt = 16) (hkey : s.keyCnt = 16) : CompletesTo s .run
      { s with ptCnt := 0, keyCnt := 0,
               state := (encrypt (toMatrix s.ptb) (toMatrix s.keyb)).st,
               rks := (encrypt (toMatrix s.ptb) (toMatrix s.keyb)).rk, rkValid := true,
               snb := (encrypt (toMatrix s.ptb) (toMatrix s.keyb)).snaps, snapCnt := 11,
               errCode := .ok }
  | ldst (hpt : s.ptCnt = 16) : CompletesTo s .ldst
      { s with ptCnt := 0, state := toMatrix s.ptb, errCode := .ok }
  | expand (hkey : s.keyCnt = 16) : CompletesTo s .expand
      { s with keyCnt := 0, rks := expandKey (toMatrix s.keyb), rkValid := true, errCode := .ok }
  | sub : CompletesTo s .sub { s with state := subBytes s.state, errCode := .ok }
  | shr : CompletesTo s .shr { s with state := shiftRows s.state, errCode := .ok }
  | mix : CompletesTo s .mix { s with state := mixColumns s.state, errCode := .ok }
  | ark {k : BitVec 4} {n : Fin 11} (hk : roundKeyOperand k = some n) (hvalid : s.rkValid = true) :
      CompletesTo s (.ark k)
        { s with state := addRoundKey s.state (s.rks.get n), errCode := .ok }
  | rdState (b : BitVec 4) : CompletesTo s (.rdState b)
      { s with rdata := matrixByte s.state (byteOperand b), errCode := .ok }
  | rdSnap {i : BitVec 4} {n : Fin 11} (b : BitVec 4) (hi : snapshotOperand i s.snapCnt = some n) :
      CompletesTo s (.rdSnap i b)
        { s with rdata := matrixByte (s.snb.get n) (byteOperand b), errCode := .ok }
  | rdRk {k : BitVec 4} {n : Fin 11} (b : BitVec 4) (hk : roundKeyOperand k = some n)
      (hvalid : s.rkValid = true) : CompletesTo s (.rdRk k b)
        { s with rdata := matrixByte (s.rks.get n) (byteOperand b), errCode := .ok }

section Commands

variable {i : Instr} {s t : State}

/-- A round-key index is out of range, or it names an entry and the schedule is valid or not; each with the error
it must report (R222, R223). -/
theorem roundKey_cases (k : BitVec 4) (s : State) :
    (roundKeyOperand k = none ∧ roundKeyError k s = .indexRange)
    ∨ (∃ n, roundKeyOperand k = some n ∧ s.rkValid = true ∧ roundKeyError k s = .ok)
    ∨ ∃ n, roundKeyOperand k = some n ∧ s.rkValid = false ∧ roundKeyError k s = .rkInvalid := by
  by_cases hk : 10 < k.toNat
  · exact .inl ⟨roundKeyOperand_of_gt hk, if_pos hk⟩
  · have hsome := roundKeyOperand_of_le (Nat.not_lt.mp hk)
    cases hv : s.rkValid with
    | true => exact .inr (.inl ⟨_, hsome, rfl, by simp [roundKeyError, hk, hv]⟩)
    | false => exact .inr (.inr ⟨_, hsome, rfl, by simp [roundKeyError, hk, hv]⟩)

/-- The entry a snapshot index names is one that is there (R222). -/
theorem snapshotOperand_eq_some {i : BitVec 4} {cnt : Fin 12} {n : Fin 11}
    (h : snapshotOperand i cnt = some n) : i.toNat < cnt.val ∧ n.val = i.toNat := by
  by_cases hi : i.toNat < cnt.val
  · rw [snapshotOperand_of_lt hi] at h
    exact ⟨hi, by rw [← Option.some.inj h]⟩
  · rw [snapshotOperand_of_ge (Nat.not_lt.mp hi)] at h
    cases h

/-- All that a command can do: it ends without an error, by its rule, where it must report none, and otherwise
it fails (R222, R224). -/
theorem exec_cases (h : exec i s = .next t) :
    (commandError i s = .ok ∧ CompletesTo s i t) ∨ (commandError i s ≠ .ok ∧ t = failed i s) := by
  cases i with
  | clr => obtain rfl := execClr_next.mp h; exact .inl ⟨rfl, .clr⟩
  | ptPush d => obtain rfl := execPtPush_next.mp h; exact .inl ⟨rfl, .ptPush d⟩
  | keyPush d => obtain rfl := execKeyPush_next.mp h; exact .inl ⟨rfl, .keyPush d⟩
  | sub => obtain rfl := execSub_next.mp h; exact .inl ⟨rfl, .sub⟩
  | shr => obtain rfl := execShr_next.mp h; exact .inl ⟨rfl, .shr⟩
  | mix => obtain rfl := execMix_next.mp h; exact .inl ⟨rfl, .mix⟩
  | rdState b => obtain rfl := execRdState_next.mp h; exact .inl ⟨rfl, .rdState b⟩
  | run =>
    obtain rfl := execRun_next.mp h
    by_cases hc : s.ptCnt = 16 ∧ s.keyCnt = 16
    · rw [if_pos hc]; exact .inl ⟨if_pos hc, .run hc.1 hc.2⟩
    · rw [if_neg hc]; exact .inr (by simp [commandError, failed, failureWrites, hc])
  | ldst =>
    obtain rfl := execLdst_next.mp h
    by_cases hc : s.ptCnt = 16
    · rw [if_pos hc]; exact .inl ⟨if_pos hc, .ldst hc⟩
    · rw [if_neg hc]; exact .inr (by simp [commandError, failed, failureWrites, hc])
  | expand =>
    obtain rfl := execExpand_next.mp h
    by_cases hc : s.keyCnt = 16
    · rw [if_pos hc]; exact .inl ⟨if_pos hc, .expand hc⟩
    · rw [if_neg hc]; exact .inr (by simp [commandError, failed, failureWrites, hc])
  | rdSnap n b =>
    obtain rfl := execRdSnap_next.mp h
    cases hn : snapshotOperand n s.snapCnt with
    | none =>
      have hge : s.snapCnt.val ≤ n.toNat := by
        by_contra hlt
        simp [snapshotOperand_of_lt (Nat.not_le.mp hlt)] at hn
      exact .inr (by simp [commandError, failed, failureWrites, hge])
    | some e =>
      exact .inl ⟨if_neg (Nat.not_le.mpr (snapshotOperand_eq_some hn).1), .rdSnap b hn⟩
  | ark k =>
    have ht := execArk_next.mp h
    obtain ⟨hk, he⟩ | ⟨n, hk, hv, he⟩ | ⟨n, hk, hv, he⟩ := roundKey_cases k s <;> rw [hk] at ht
    · obtain rfl := ht
      exact .inr (by simp [commandError, failed, failureWrites, he])
    · obtain rfl := ht.trans (if_pos hv)
      exact .inl ⟨he, .ark hk hv⟩
    · obtain rfl := ht.trans (if_neg (by simp [hv]))
      exact .inr (by simp [commandError, failed, failureWrites, he])
  | rdRk k b =>
    have ht := execRdRk_next.mp h
    obtain ⟨hk, he⟩ | ⟨n, hk, hv, he⟩ | ⟨n, hk, hv, he⟩ := roundKey_cases k s <;> rw [hk] at ht
    · obtain rfl := ht
      exact .inr (by simp [commandError, failed, failureWrites, he])
    · obtain rfl := ht.trans (if_pos hv)
      exact .inl ⟨he, .rdRk b hk hv⟩
    · obtain rfl := ht.trans (if_neg (by simp [hv]))
      exact .inr (by simp [commandError, failed, failureWrites, he])

/-! ## What a command writes -/

@[simp] theorem failed_ptb (i : Instr) (s : State) : (failed i s).ptb = s.ptb := by cases i <;> rfl
@[simp] theorem failed_keyb (i : Instr) (s : State) : (failed i s).keyb = s.keyb := by cases i <;> rfl
@[simp] theorem failed_state (i : Instr) (s : State) : (failed i s).state = s.state := by cases i <;> rfl
@[simp] theorem failed_rks (i : Instr) (s : State) : (failed i s).rks = s.rks := by cases i <;> rfl
@[simp] theorem failed_snb (i : Instr) (s : State) : (failed i s).snb = s.snb := by cases i <;> rfl
@[simp] theorem failed_rdata (i : Instr) (s : State) : (failed i s).rdata = s.rdata := by cases i <;> rfl
@[simp] theorem failed_host (i : Instr) (s : State) : (failed i s).host = s.host := by cases i <;> rfl
@[simp] theorem failed_errCode (i : Instr) (s : State) : (failed i s).errCode = commandError i s := rfl
@[simp] theorem failed_errSticky (i : Instr) (s : State) : (failed i s).errSticky = true := rfl

theorem failed_ptCnt (s : State) (hi : i ∉ [.run, .ldst]) : (failed i s).ptCnt = s.ptCnt := by
  cases i <;> simp [failed, failureWrites] at hi ⊢

theorem failed_keyCnt (s : State) (hi : i ∉ [.run, .expand]) : (failed i s).keyCnt = s.keyCnt := by
  cases i <;> simp [failed, failureWrites] at hi ⊢

theorem failed_rkValid (s : State) (hi : i ∉ [.run, .expand]) :
    (failed i s).rkValid = s.rkValid := by
  cases i <;> simp [failed, failureWrites] at hi ⊢

theorem failed_snapCnt (s : State) (hi : i ≠ .run) : (failed i s).snapCnt = s.snapCnt := by
  cases i <;> simp [failed, failureWrites] at hi ⊢

theorem completesTo_errCode (h : CompletesTo s i t) : t.errCode = .ok := by
  cases h <;> rfl

/-- Every command rewrites `ERR_CODE` with the error it must report (R33). -/
theorem exec_errCode (h : exec i s = .next t) : t.errCode = commandError i s := by
  obtain ⟨hok, ht⟩ | ⟨-, rfl⟩ := exec_cases h
  · rw [hok, completesTo_errCode ht]
  · rfl

/-- A command that ended with an error failed. -/
theorem eq_failed_of_errCode (h : exec i s = .next t) (he : t.errCode ≠ .ok) : t = failed i s := by
  obtain ⟨-, ht⟩ | ⟨-, rfl⟩ := exec_cases h
  · exact absurd (completesTo_errCode ht) he
  · rfl

/-- A command that ended without an error completed by its rule. -/
theorem completesTo_of_errCode (h : exec i s = .next t) (he : t.errCode = .ok) :
    CompletesTo s i t := by
  obtain ⟨-, ht⟩ | ⟨herr, rfl⟩ := exec_cases h
  · exact ht
  · exact absurd he herr

/-- The plaintext buffer is written by PT_PUSH and CLR alone (R41). -/
theorem exec_ptb (h : exec i s = .next t) (hpush : ∀ d, i ≠ .ptPush d) (hclr : i ≠ .clr) :
    t.ptb = s.ptb := by
  obtain ⟨-, ht⟩ | ⟨-, rfl⟩ := exec_cases h
  · cases ht <;> simp at hpush hclr ⊢
  · exact failed_ptb i s

theorem exec_ptCnt (h : exec i s = .next t) (hpush : ∀ d, i ≠ .ptPush d)
    (hrow : i ∉ [.clr, .run, .ldst]) : t.ptCnt = s.ptCnt := by
  obtain ⟨-, ht⟩ | ⟨-, rfl⟩ := exec_cases h
  · cases ht <;> simp at hpush hrow ⊢
  · exact failed_ptCnt s fun hi => hrow (List.mem_cons_of_mem _ hi)

theorem exec_keyb (h : exec i s = .next t) (hpush : ∀ d, i ≠ .keyPush d) (hclr : i ≠ .clr) :
    t.keyb = s.keyb := by
  obtain ⟨-, ht⟩ | ⟨-, rfl⟩ := exec_cases h
  · cases ht <;> simp at hpush hclr ⊢
  · exact failed_keyb i s

theorem exec_keyCnt (h : exec i s = .next t) (hpush : ∀ d, i ≠ .keyPush d)
    (hrow : i ∉ [.clr, .run, .expand]) : t.keyCnt = s.keyCnt := by
  obtain ⟨-, ht⟩ | ⟨-, rfl⟩ := exec_cases h
  · cases ht <;> simp at hpush hrow ⊢
  · exact failed_keyCnt s fun hi => hrow (List.mem_cons_of_mem _ hi)

theorem exec_state (h : exec i s = .next t)
    (hrow : ((∀ k, i ≠ .ark k) ∧ i ∉ [.clr, .run, .ldst, .sub, .shr, .mix]) ∨ t.errCode ≠ .ok) :
    t.state = s.state := by
  obtain ⟨-, ht⟩ | ⟨-, rfl⟩ := exec_cases h
  · cases ht <;> simp at hrow ⊢
  · exact failed_state i s

theorem exec_rks (h : exec i s = .next t) (hrow : i ∉ [.clr, .run, .expand] ∨ t.errCode ≠ .ok) :
    t.rks = s.rks := by
  obtain ⟨-, ht⟩ | ⟨-, rfl⟩ := exec_cases h
  · cases ht <;> simp at hrow ⊢
  · exact failed_rks i s

theorem exec_rkValid (h : exec i s = .next t) (hrow : i ∉ [.clr, .run, .expand]) :
    t.rkValid = s.rkValid := by
  obtain ⟨-, ht⟩ | ⟨-, rfl⟩ := exec_cases h
  · cases ht <;> simp at hrow ⊢
  · exact failed_rkValid s fun hi => hrow (List.mem_cons_of_mem _ hi)

theorem exec_snb (h : exec i s = .next t) (hrow : i ∉ [.clr, .run] ∨ t.errCode ≠ .ok) :
    t.snb = s.snb := by
  obtain ⟨-, ht⟩ | ⟨-, rfl⟩ := exec_cases h
  · cases ht <;> simp at hrow ⊢
  · exact failed_snb i s

theorem exec_snapCnt (h : exec i s = .next t) (hrow : i ∉ [.clr, .run]) :
    t.snapCnt = s.snapCnt := by
  obtain ⟨-, ht⟩ | ⟨-, rfl⟩ := exec_cases h
  · cases ht <;> simp at hrow ⊢
  · exact failed_snapCnt s fun hi => hrow (by simp [hi])

theorem exec_rdata (h : exec i s = .next t)
    (hrow : ((∀ b, i ≠ .rdState b) ∧ (∀ n b, i ≠ .rdSnap n b) ∧ (∀ k b, i ≠ .rdRk k b) ∧ i ≠ .clr)
      ∨ t.errCode ≠ .ok) : t.rdata = s.rdata := by
  obtain ⟨-, ht⟩ | ⟨-, rfl⟩ := exec_cases h
  · cases ht <;> simp at hrow ⊢
  · exact failed_rdata i s

/-- A command that ends without an error leaves the sticky bit alone, unless it is CLR (R34). -/
theorem exec_errSticky_of_ok (h : exec i s = .next t) (hok : t.errCode = .ok) (hclr : i ≠ .clr) :
    t.errSticky = s.errSticky := by
  cases completesTo_of_errCode h hok with
  | clr => exact absurd rfl hclr
  | _ => rfl

theorem exec_host (h : exec i s = .next t) : t.host = s.host := by
  obtain ⟨-, ht⟩ | ⟨-, rfl⟩ := exec_cases h
  · cases ht <;> rfl
  · exact failed_host i s

/-- A push changes no byte but the one at its count (R24, R41). -/
theorem pushByte_getElem?_of_ne (buf : Block) {cnt : Fin 18} (d : Byte) {a : Nat}
    (ha : a ≠ cnt.val) : (pushByte buf cnt d).1[a]? = buf[a]? := by
  by_cases hlt : cnt.val < 16
  · rw [pushByte_of_lt d hlt]
    exact Vector.getElem?_set_ne hlt ha.symm
  · rw [pushByte_of_ge d (Nat.not_lt.mp hlt)]

end Commands

/-- Settles O48: the clauses are the frame lemmas of each element, and an illegal word writes the two error
elements alone. -/
theorem writeMatrix : Obligations.WriteMatrix := by
  refine ⟨fun w why s t hw h => ?_, fun i s t h => ⟨?_, ?_, ?_, exec_ptCnt h, ?_, exec_keyCnt h, ?_, ?_,
    exec_rkValid h, ?_, exec_snapCnt h, exec_rdata h, exec_errSticky_of_ok h, exec_host h⟩⟩
  · rw [acceptWord_of_illegal hw] at h
    obtain rfl := Host.Outcome.next.inj h
    exact ⟨⟨fun _ => rfl, rfl⟩, ⟨fun _ => rfl, rfl⟩, fun _ => rfl, ⟨fun _ => rfl, rfl⟩,
      ⟨fun _ => rfl, rfl⟩, rfl, rfl⟩
  · exact fun hpush hclr => sameBytes_ptb_iff.mpr (exec_ptb h hpush hclr)
  · rintro ⟨d, rfl⟩ a ha
    obtain rfl := execPtPush_next.mp h
    exact pushByte_getElem?_of_ne s.ptb d ha
  · rintro ⟨d, rfl⟩ a ha
    obtain rfl := execKeyPush_next.mp h
    exact pushByte_getElem?_of_ne s.keyb d ha
  · exact fun hpush hclr => sameBytes_keyb_iff.mpr (exec_keyb h hpush hclr)
  · exact fun hrow => sameBytes_state_iff.mpr (exec_state h hrow)
  · exact fun hrow => sameBytes_rks_iff.mpr (exec_rks h hrow)
  · exact fun hrow => sameBytes_snb_iff.mpr (exec_snb h hrow)

/-! ## Words, steps and programs -/

/-- All that an accepted word can do: its command's effect, or R78's. -/
theorem acceptWord_cases {w : Word} {s t : State} (h : acceptWord w s = .next t) :
    (∃ i, decode w = .command i ∧ exec i s = .next t)
    ∨ ∃ why, decode w = .illegal why
        ∧ t = { s with errCode := .illegalCmd, errSticky := true } := by
  cases hw : decode w with
  | command i => exact .inl ⟨i, rfl, by rwa [acceptWord_of_command hw] at h⟩
  | illegal why =>
    rw [acceptWord_of_illegal hw] at h
    exact .inr ⟨why, rfl, (Host.Outcome.next.inj h).symm⟩

/-- All that a step can do: nothing, where the host offers nothing, or the effect of the host's next event on the
state with that event taken. -/
theorem step_cases {s t : State} (h : step s = .next t) :
    (s.host = [] ∧ t = s)
    ∨ ∃ e rest, s.host = e :: rest ∧ hostEvent e { s with host := rest } = .next t := by
  cases hs : s.host with
  | nil =>
    rw [step_of_host_nil s hs] at h
    exact .inl ⟨rfl, (Host.Outcome.next.inj h).symm⟩
  | cons e rest => exact .inr ⟨e, rest, rfl, by rwa [step_of_host_cons s hs] at h⟩

theorem step_completes (s : State) : ∃ t, step s = .next t := by
  cases hs : s.host with
  | nil => exact ⟨s, step_of_host_nil s hs⟩
  | cons e rest => rw [step_of_host_cons s hs]; exact hostEvent_completes e _

/-! ## Contents that cannot be read -/

/-- Two buffers that agree below a count agree below the count after the same push: the push writes the one byte
that becomes readable. -/
theorem pushByte_get_eq {b b' : Block} {cnt : Fin 18} (d : Byte)
    (h : ∀ n : Fin 16, n.val < cnt.val → b'.get n = b.get n) (n : Fin 16)
    (hn : n.val < (pushByte b cnt d).2.val) :
    (pushByte b' cnt d).1.get n = (pushByte b cnt d).1.get n := by
  by_cases hlt : cnt.val < 16
  · rw [pushByte_of_lt d hlt] at hn ⊢
    rw [pushByte_of_lt d hlt]
    simp only [Vector.get_eq_getElem, Vector.getElem_set]
    split
    · rfl
    · exact h n (by simp only at hn; omega)
  · rw [pushByte_of_ge d (Nat.not_lt.mp hlt), pushByte_of_ge d (Nat.not_lt.mp hlt)]
    exact h n (by omega)

/-- The count after a push does not depend on the buffer. -/
theorem pushByte_snd_eq (b b' : Block) (cnt : Fin 18) (d : Byte) :
    (pushByte b' cnt d).2 = (pushByte b cnt d).2 := by
  by_cases hlt : cnt.val < 16
  · rw [pushByte_of_lt d hlt, pushByte_of_lt d hlt]
  · rw [pushByte_of_ge d (Nat.not_lt.mp hlt), pushByte_of_ge d (Nat.not_lt.mp hlt)]

/-- Buffers that agree below a count of sixteen are the same buffer. -/
theorem block_eq_of_full {b b' : Block} {cnt : Fin 18} (hcnt : cnt = 16)
    (h : ∀ n : Fin 16, n.val < cnt.val → b'.get n = b.get n) : b' = b :=
  Vector.ext fun n hn => h ⟨n, hn⟩ (by rw [hcnt]; exact hn)

namespace SameReadable

variable {i : Instr} {s s' t t' : State}

theorem withHost (h : SameReadable s s') (host : List HostEvent) :
    SameReadable { s with host := host } { s' with host := host } :=
  { h with host := rfl }

theorem withError (h : SameReadable s s') (e : ErrCode) :
    SameReadable { s with errCode := e, errSticky := true }
      { s' with errCode := e, errSticky := true } :=
  { h with errCode := rfl, errSticky := rfl }

theorem after_reset (h : SameReadable s s') :
    SameReadable (resetRegisters s) (resetRegisters s') where
  ptCnt := rfl
  keyCnt := rfl
  state := rfl
  rkValid := rfl
  snapCnt := rfl
  rdata := rfl
  errCode := rfl
  errSticky := rfl
  host := h.host
  ptb _ _ := rfl
  keyb _ _ := rfl
  rks _ := rfl
  snb _ _ := rfl

/-- The error a command must report depends on what can be read alone. -/
theorem commandError_eq (h : SameReadable s s') (i : Instr) :
    commandError i s' = commandError i s := by
  cases i <;> simp [commandError, roundKeyError, h.ptCnt, h.keyCnt, h.rkValid, h.snapCnt]

/-- Clearing counts and valid flags makes less readable. -/
theorem after_failureWrites (h : SameReadable s s') (i : Instr) :
    SameReadable (failureWrites i s) (failureWrites i s') := by
  cases i with
  | run => exact { h with
      ptCnt := rfl, keyCnt := rfl, rkValid := rfl, snapCnt := rfl
      ptb := fun _ hn => absurd hn (Nat.not_lt_zero _)
      keyb := fun _ hn => absurd hn (Nat.not_lt_zero _)
      rks := fun hv => absurd hv Bool.false_ne_true
      snb := fun _ hn => absurd hn (Nat.not_lt_zero _) }
  | ldst => exact { h with ptCnt := rfl, ptb := fun _ hn => absurd hn (Nat.not_lt_zero _) }
  | expand => exact { h with
      keyCnt := rfl, rkValid := rfl
      keyb := fun _ hn => absurd hn (Nat.not_lt_zero _)
      rks := fun hv => absurd hv Bool.false_ne_true }
  | _ => exact h

theorem after_failure (h : SameReadable s s') (i : Instr) : SameReadable (failed i s) (failed i s') := by
  unfold failed
  rw [h.commandError_eq i]
  exact (h.after_failureWrites i).withError _

/-- The rules of the commands read nothing that cannot be read back, and make readable only what they write. -/
theorem after_completion (h : SameReadable s s') (ht : CompletesTo s i t) (ht' : CompletesTo s' i t') :
    SameReadable t t' := by
  cases ht with
  | clr => cases ht'; exact { h.after_reset with errCode := rfl }
  | ptPush d =>
    cases ht'
    exact { h with
      errCode := rfl
      ptCnt := by rw [h.ptCnt]; exact pushByte_snd_eq ..
      ptb := by rw [h.ptCnt]; exact pushByte_get_eq d h.ptb }
  | keyPush d =>
    cases ht'
    exact { h with
      errCode := rfl
      keyCnt := by rw [h.keyCnt]; exact pushByte_snd_eq ..
      keyb := by rw [h.keyCnt]; exact pushByte_get_eq d h.keyb }
  | run hpt hkey =>
    cases ht'
    rw [block_eq_of_full hpt h.ptb, block_eq_of_full hkey h.keyb]
    exact { h with
      ptCnt := rfl, keyCnt := rfl, state := rfl, rkValid := rfl, snapCnt := rfl, errCode := rfl
      ptb := fun _ hn => absurd hn (Nat.not_lt_zero _)
      keyb := fun _ hn => absurd hn (Nat.not_lt_zero _)
      rks := fun _ => rfl, snb := fun _ _ => rfl }
  | ldst hpt =>
    cases ht'
    rw [block_eq_of_full hpt h.ptb]
    exact { h with
      ptCnt := rfl, state := rfl, errCode := rfl
      ptb := fun _ hn => absurd hn (Nat.not_lt_zero _) }
  | expand hkey =>
    cases ht'
    rw [block_eq_of_full hkey h.keyb]
    exact { h with
      keyCnt := rfl, rkValid := rfl, errCode := rfl
      keyb := fun _ hn => absurd hn (Nat.not_lt_zero _)
      rks := fun _ => rfl }
  | sub => cases ht'; exact { h with state := congrArg subBytes h.state, errCode := rfl }
  | shr => cases ht'; exact { h with state := congrArg shiftRows h.state, errCode := rfl }
  | mix => cases ht'; exact { h with state := congrArg mixColumns h.state, errCode := rfl }
  | ark hk hvalid =>
    cases ht' with
    | ark hk' _ =>
      obtain rfl := Option.some.inj (hk.symm.trans hk')
      exact { h with state := by rw [h.state, h.rks hvalid], errCode := rfl }
  | rdState b => cases ht'; exact { h with rdata := by rw [h.state], errCode := rfl }
  | rdSnap b hi =>
    cases ht' with
    | rdSnap _ hi' =>
      rw [h.snapCnt] at hi'
      obtain rfl := Option.some.inj (hi.symm.trans hi')
      obtain ⟨hlt, hn⟩ := snapshotOperand_eq_some hi
      exact { h with rdata := by rw [h.snb _ (hn ▸ hlt)], errCode := rfl }
  | rdRk b hk hvalid =>
    cases ht' with
    | rdRk _ hk' _ =>
      obtain rfl := Option.some.inj (hk.symm.trans hk')
      exact { h with rdata := by rw [h.rks hvalid], errCode := rfl }

theorem after_exec (h : SameReadable s s') (ht : exec i s = .next t) (ht' : exec i s' = .next t') :
    SameReadable t t' := by
  obtain ⟨hok, hc⟩ | ⟨herr, rfl⟩ := exec_cases ht
  · obtain ⟨-, hc'⟩ | ⟨herr', -⟩ := exec_cases ht'
    · exact h.after_completion hc hc'
    · exact absurd ((h.commandError_eq i).trans hok) herr'
  · obtain ⟨hok', -⟩ | ⟨-, rfl⟩ := exec_cases ht'
    · exact absurd ((h.commandError_eq i).symm.trans hok') herr
    · exact h.after_failure i

theorem after_word {w : Word} (h : SameReadable s s') (ht : acceptWord w s = .next t)
    (ht' : acceptWord w s' = .next t') : SameReadable t t' := by
  cases hw : decode w with
  | command i =>
    rw [acceptWord_of_command hw] at ht ht'
    exact h.after_exec ht ht'
  | illegal why =>
    rw [acceptWord_of_illegal hw] at ht ht'
    obtain rfl := Host.Outcome.next.inj ht
    obtain rfl := Host.Outcome.next.inj ht'
    exact h.withError _

theorem after_event {e : HostEvent} (h : SameReadable s s') (ht : hostEvent e s = .next t)
    (ht' : hostEvent e s' = .next t') : SameReadable t t' := by
  cases e with
  | cmd w => exact h.after_word ht ht'
  | reset =>
    obtain rfl := Host.Outcome.next.inj ht
    obtain rfl := Host.Outcome.next.inj ht'
    exact h.after_reset

theorem after_step (h : SameReadable s s') (ht : step s = .next t) (ht' : step s' = .next t') :
    SameReadable t t' := by
  cases hs : s.host with
  | nil =>
    rw [step_of_host_nil s hs] at ht
    rw [step_of_host_nil s' (h.host.trans hs)] at ht'
    obtain rfl := Host.Outcome.next.inj ht
    obtain rfl := Host.Outcome.next.inj ht'
    exact h
  | cons e rest =>
    rw [step_of_host_cons s hs] at ht
    rw [step_of_host_cons s' (h.host.trans hs)] at ht'
    exact (h.withHost rest).after_event ht ht'

/-- Both outputs show only what can be read. -/
theorem observe_eq (h : SameReadable s s') : observe s' = observe s := by
  simp only [observe, statusWord, h.ptCnt, h.keyCnt, h.rkValid, h.snapCnt, h.rdata, h.errCode,
    h.errSticky]

end SameReadable

/-- Settles O51: every rule of a command keeps two states alike in all that can be read, and so does every other
event. -/
theorem unreadableContentsNeverShow : Obligations.UnreadableContentsNeverShow := by
  intro s s' t h ht
  obtain ⟨t', ht'⟩ := step_completes s'
  exact ⟨t', ht', h.after_step ht ht', (h.after_step ht ht').observe_eq⟩

/-! ## The STATUS word -/

/-- A field of STATUS is the value with the same bits. -/
theorem statusWord_field {s : State} {start len : Nat} {v : BitVec len}
    (h : ∀ i < len, (statusWord s).getLsbD (start + i) = v.getLsbD i) :
    (statusWord s).extractLsb' start len = v :=
  BitVec.eq_of_getLsbD_eq fun i hi => by rw [BitVec.getLsbD_extractLsb', h i hi]; simp [hi]

theorem statusWord_errCode (s : State) :
    (statusWord s).extractLsb' 0 4 = errCodeBits s.errCode :=
  statusWord_field fun i hi => by
    rw [getLsbD_statusWord]; interval_cases i <;> simp

theorem statusWord_snapCnt (s : State) :
    (statusWord s).extractLsb' 8 4 = snapCountBits s.snapCnt :=
  statusWord_field fun i hi => by
    rw [getLsbD_statusWord]; interval_cases i <;> simp

theorem statusWord_ptCnt (s : State) : (statusWord s).extractLsb' 16 5 = countBits s.ptCnt :=
  statusWord_field fun i hi => by
    rw [getLsbD_statusWord]; interval_cases i <;> simp

theorem statusWord_keyCnt (s : State) : (statusWord s).extractLsb' 24 5 = countBits s.keyCnt :=
  statusWord_field fun i hi => by
    rw [getLsbD_statusWord]; interval_cases i <;> simp

theorem errCodeBits_lt (e : ErrCode) : (errCodeBits e).toNat < 5 := by
  cases e <;> decide

theorem countBits_toNat (n : Fin 18) : (countBits n).toNat = n.val := by
  rw [countBits, BitVec.toNat_ofNat]; omega

theorem snapCountBits_toNat (n : Fin 12) : (snapCountBits n).toNat = n.val := by
  rw [snapCountBits, BitVec.toNat_ofNat]; omega

/-- STATUS after reset. -/
theorem statusWord_reset : statusWord State.reset = 0 := by decide

/-- Settles O45: each field by its bits, and the counts fit their fields. -/
theorem statusWordLayout : Obligations.StatusWordLayout := by
  refine ⟨rfl, rfl, rfl, rfl, rfl, statusWord_reset, fun s => ?_, fun s =>
    ⟨statusWord_errCode s, ?_, ?_, ?_, ?_, ?_, ?_, ?_, ?_, ?_⟩⟩
  · rw [statusWord_errCode]; exact errCodeBits_lt s.errCode
  · rw [getLsbD_statusWord]; simp
  · rw [getLsbD_statusWord]; simp
  · exact statusWord_field fun i hi => by
      rw [getLsbD_statusWord]; interval_cases i <;> simp
  · rw [statusWord_snapCnt, snapCountBits_toNat]
  · exact statusWord_field fun i hi => by
      rw [getLsbD_statusWord]; interval_cases i <;> simp
  · rw [statusWord_ptCnt, countBits_toNat]
  · exact statusWord_field fun i hi => by
      rw [getLsbD_statusWord]; interval_cases i <;> simp
  · rw [statusWord_keyCnt, countBits_toNat]
  · exact statusWord_field fun i hi => by
      rw [getLsbD_statusWord]; interval_cases i <;> simp

/-- Settles O10: the reset values, and STATE reads as the zero matrix. -/
theorem stateAfterResetReadsAsTheSpecSays : Obligations.StateAfterResetReadsAsTheSpecSays := by
  have hstate : ∀ n : Fin 16, matrixByte zeroMatrix n = 0x00 := by decide
  refine ⟨statusWord_reset, rfl, rfl, rfl, fun a ha => ?_, rfl, rfl, rfl, rfl⟩
  exact (memRead_state_fin State.reset ⟨a, ha⟩).trans (congrArg some (hstate ⟨a, ha⟩))

/-! ## Errors and the sticky bit -/

theorem acceptWord_errCode {w : Word} {s t : State} (h : acceptWord w s = .next t) :
    t.errCode = wordError w s := by
  obtain ⟨i, hw, h⟩ | ⟨why, hw, rfl⟩ := acceptWord_cases h
  · simpa [wordError, hw] using exec_errCode h
  · simp [wordError, hw]

/-- Settles O46: a command reports the error of its case of `exec_cases`, an illegal word its own. -/
theorem everyWordReportsItsError : Obligations.EveryWordReportsItsError :=
  fun _ _ _ => acceptWord_errCode

/-- Every error sets the sticky bit (R34). -/
theorem acceptWord_errSticky_of_error {w : Word} {s t : State} (h : acceptWord w s = .next t)
    (he : t.errCode ≠ .ok) : t.errSticky = true := by
  obtain ⟨i, -, h⟩ | ⟨why, -, rfl⟩ := acceptWord_cases h
  · rw [eq_failed_of_errCode h he]; rfl
  · rfl

/-- A word that ends without an error leaves the sticky bit alone, unless it is CLR (R34). -/
theorem acceptWord_errSticky_of_ok {w : Word} {s t : State} (h : acceptWord w s = .next t)
    (hclr : decode w ≠ .command .clr) (hok : t.errCode = .ok) : t.errSticky = s.errSticky := by
  obtain ⟨i, hw, h⟩ | ⟨why, -, rfl⟩ := acceptWord_cases h
  · exact exec_errSticky_of_ok h hok fun hi => hclr (hi ▸ hw)
  · cases hok

/-- Once set, the sticky bit stays set under every word but CLR (R34). -/
theorem acceptWord_keeps_errSticky {w : Word} {s t : State} (h : acceptWord w s = .next t)
    (hclr : decode w ≠ .command .clr) (hs : s.errSticky = true) : t.errSticky = true := by
  by_cases he : t.errCode = .ok
  · rw [acceptWord_errSticky_of_ok h hclr he, hs]
  · exact acceptWord_errSticky_of_error h he

/-- A program that completes does so by its first word and then the others. -/
theorem runProgram_cons_next {w : Word} {ws : List Word} {s : State} {r : ProgramRun}
    (h : runProgram (w :: ws) s = .next r) :
    ∃ t r', acceptWord w s = .next t ∧ runProgram ws t = .next r' ∧ r.final = r'.final
      ∧ r.seen = observe t :: r'.seen := by
  obtain ⟨t, ht⟩ := acceptWord_completes w s
  cases hr : runProgram ws t with
  | next r' =>
    simp only [runProgram, ht, hr] at h
    obtain rfl := Host.Outcome.next.inj h
    exact ⟨t, r', ht, hr, rfl, rfl⟩
  | fault f => cases f
  | refused f => simp [runProgram, ht, hr] at h

/-- What each word of a program keeps, the program keeps. -/
theorem runProgram_keeps {P : State → Prop} {ws : List Word}
    (hword : ∀ w ∈ ws, ∀ s t, acceptWord w s = .next t → P s → P t) {s : State} {r : ProgramRun}
    (h : runProgram ws s = .next r) (hs : P s) : P r.final := by
  induction ws generalizing s r with
  | nil => obtain rfl := Host.Outcome.next.inj h; exact hs
  | cons w ws ih =>
    obtain ⟨hw, hws⟩ := List.forall_mem_cons.mp hword
    obtain ⟨t, r', ht, hr', hfinal, -⟩ := runProgram_cons_next h
    rw [hfinal]
    exact ih hws hr' (hw s t ht hs)

/-- A program without CLR whose sticky bit ends at 0 shows no error code (R34): a word that failed would have set
the bit, and the rest of the program keeps it. -/
theorem runProgram_seen_ok {ws : List Word} {s : State} {r : ProgramRun}
    (h : runProgram ws s = .next r) (hclr : ∀ w ∈ ws, decode w ≠ .command .clr)
    (hfinal : r.final.errSticky = false) : ∀ o ∈ r.seen, o.status.extractLsb' 0 4 = 0 := by
  induction ws generalizing s r with
  | nil => obtain rfl := Host.Outcome.next.inj h; simp
  | cons w ws ih =>
    obtain ⟨-, hws⟩ := List.forall_mem_cons.mp hclr
    obtain ⟨t, r', ht, hr', hfin, hseen⟩ := runProgram_cons_next h
    rw [hfin] at hfinal
    have hok : t.errCode = .ok := by
      by_contra he
      have hsticky := runProgram_keeps (P := fun u => u.errSticky = true)
        (fun w hw s t ht => acceptWord_keeps_errSticky ht (hws w hw)) hr'
        (acceptWord_errSticky_of_error ht he)
      simp [hfinal] at hsticky
    rw [hseen]
    refine List.forall_mem_cons.mpr ⟨?_, ih hr' hws hfinal⟩
    exact (statusWord_errCode t).trans (congrArg errCodeBits hok)

/-- Settles O47. Only CLR and reset clear the bit because every other word keeps it once set; the last clause is
an induction over the program. -/
theorem stickyBitTellsWhetherAnyCommandFailed :
    Obligations.StickyBitTellsWhetherAnyCommandFailed := by
  refine ⟨fun _ _ _ => acceptWord_errSticky_of_error, fun _ _ _ => acceptWord_errSticky_of_ok,
    fun e s t h hs ht => ?_, fun _ _ _ => runProgram_seen_ok⟩
  cases e with
  | reset => exact .inl rfl
  | cmd w =>
    refine .inr ⟨w, rfl, ?_⟩
    by_contra hclr
    simp [acceptWord_keeps_errSticky h hclr hs] at ht

/-! ## How long results last -/

theorem SameBytes.trans {sp : Space} {s t u : State} (h : SameBytes sp s t)
    (h' : SameBytes sp t u) : SameBytes sp s u :=
  fun a => (h' a).trans (h a)

theorem SameSnapshots.trans {s t u : State} :
    SameSnapshots s t → SameSnapshots t u → SameSnapshots s u
  | ⟨hsnb, hcnt⟩, ⟨hsnb', hcnt'⟩ => ⟨hsnb.trans hsnb', hcnt'.trans hcnt⟩

theorem SameSchedule.trans {s t u : State} :
    SameSchedule s t → SameSchedule t u → SameSchedule s u
  | ⟨hrks, hvalid⟩, ⟨hrks', hvalid'⟩ => ⟨hrks.trans hrks', hvalid'.trans hvalid⟩

/-- A word that is neither RUN nor CLR leaves the snapshots as they are (R29). -/
theorem acceptWord_snapshots {w : Word} {s t : State} (h : acceptWord w s = .next t)
    (hrun : decode w ≠ .command .run) (hclr : decode w ≠ .command .clr) :
    SameSnapshots s t := by
  obtain ⟨i, hw, h⟩ | ⟨why, -, rfl⟩ := acceptWord_cases h
  · have hi : i ∉ [.clr, .run] := by
      intro hmem
      obtain rfl | rfl : i = .clr ∨ i = .run := by simpa using hmem
      · exact hclr hw
      · exact hrun hw
    exact ⟨sameBytes_snb_iff.mpr (exec_snb h (.inl hi)), exec_snapCnt h hi⟩
  · exact ⟨fun _ => rfl, rfl⟩

/-- A word that is none of RUN, CLR and EXPAND leaves the key schedule as it is (R25). -/
theorem acceptWord_schedule {w : Word} {s t : State} (h : acceptWord w s = .next t)
    (hrun : decode w ≠ .command .run) (hclr : decode w ≠ .command .clr)
    (hexpand : decode w ≠ .command .expand) : SameSchedule s t := by
  obtain ⟨i, hw, h⟩ | ⟨why, -, rfl⟩ := acceptWord_cases h
  · have hi : i ∉ [.clr, .run, .expand] := by
      intro hmem
      obtain rfl | rfl | rfl : i = .clr ∨ i = .run ∨ i = .expand := by simpa using hmem
      · exact hclr hw
      · exact hrun hw
      · exact hexpand hw
    exact ⟨sameBytes_rks_iff.mpr (exec_rks h (.inl hi)), exec_rkValid h hi⟩
  · exact ⟨fun _ => rfl, rfl⟩

/-- Settles O49: no word but the writers changes the results, so no program without the writers does. -/
theorem resultsLastUntilTheirNextWriter : Obligations.ResultsLastUntilTheirNextWriter := by
  intro ws s r h
  constructor
  · intro hws
    refine runProgram_keeps (P := SameSnapshots s) (fun w hw u t ht hu => ?_) h ⟨fun _ => rfl, rfl⟩
    obtain ⟨hrun, hclr⟩ := hws w hw
    exact hu.trans (acceptWord_snapshots ht hrun hclr)
  · intro hws
    refine runProgram_keeps (P := SameSchedule s) (fun w hw u t ht hu => ?_) h ⟨fun _ => rfl, rfl⟩
    obtain ⟨hrun, hclr, hexpand⟩ := hws w hw
    exact hu.trans (acceptWord_schedule ht hrun hclr hexpand)

/-! ## The core's invariant -/

/-- Entry 0 of an expanded key is the key (R176): the recurrence leaves words 0 to 3, the key's columns, as they
are. -/
theorem expandKey_get_zero (key : ByteMatrix) : (expandKey key).get 0 = key := by
  refine matrix_ext fun r j => ?_
  have hword : scheduleWord (keyWords key) (4 * 0 + j.val) = columnWord key j := by
    rw [keyWords, scheduleWord_foldl _ _ (by simp [firstWords])]
    fin_cases j <;> rfl
  have hcell : cell ((expandKey key).get 0) r j = wordByte (columnWord key j) r := by
    rw [← hword]; simp [expandKey, groupRoundKeys]
  rw [hcell, columnWord, wordByte_packBytes]
  fin_cases r <;> rfl

namespace CoreInvariant

variable {i : Instr} {s t : State}

theorem withHost (h : CoreInvariant s) (host : List HostEvent) :
    CoreInvariant { s with host := host } :=
  { h with }

theorem withError (h : CoreInvariant s) (e : ErrCode) :
    CoreInvariant { s with errCode := e, errSticky := true } :=
  { h with stickyRecordsError := fun _ => rfl }

theorem withoutError (h : CoreInvariant s) : CoreInvariant { s with errCode := .ok } :=
  { h with stickyRecordsError := fun he => absurd rfl he }

theorem after_reset (s : State) : CoreInvariant (resetRegisters s) where
  stickyRecordsError he := absurd rfl he
  snapshotCount := .inl rfl
  validSchedule hv := absurd hv Bool.false_ne_true
  validSnapshots hc := absurd (show (0 : Fin 12) = 11 from hc) (by decide)

/-- A failure keeps the results or makes them invalid. -/
theorem after_failureWrites (h : CoreInvariant s) (i : Instr) : CoreInvariant (failureWrites i s) := by
  cases i with
  | run => exact { h with
      snapshotCount := .inl rfl
      validSchedule := fun hv => absurd hv Bool.false_ne_true
      validSnapshots := fun hc => absurd (show (0 : Fin 12) = 11 from hc) (by decide) }
  | expand => exact { h with validSchedule := fun hv => absurd hv Bool.false_ne_true }
  | ldst => exact { h with }
  | _ => exact h

theorem after_failure (h : CoreInvariant s) (i : Instr) : CoreInvariant (failed i s) :=
  (h.after_failureWrites i).withError _

/-- EXPAND and RUN make the schedule an expansion, RUN makes the snapshots those of its encryption, and no other
command but CLR writes either. -/
theorem after_completion (h : CoreInvariant s) (ht : CompletesTo s i t) : CoreInvariant t := by
  cases ht with
  | clr => exact (after_reset s).withoutError
  | run hpt hkey => exact {
      stickyRecordsError := fun he => absurd rfl he
      snapshotCount := .inr rfl
      validSchedule := fun _ => (congrArg expandKey (expandKey_get_zero _)).symm
      validSnapshots := fun _ => ⟨_, _, rfl⟩ }
  | expand hkey => exact { h with
      stickyRecordsError := fun he => absurd rfl he
      validSchedule := fun _ => (congrArg expandKey (expandKey_get_zero _)).symm }
  | _ => exact { h with stickyRecordsError := fun he => absurd rfl he }

theorem after_exec (h : CoreInvariant s) (ht : exec i s = .next t) : CoreInvariant t := by
  obtain ⟨-, hc⟩ | ⟨-, rfl⟩ := exec_cases ht
  · exact h.after_completion hc
  · exact h.after_failure i

theorem after_event {e : HostEvent} (h : CoreInvariant s) (ht : hostEvent e s = .next t) :
    CoreInvariant t := by
  cases e with
  | reset => obtain rfl := Host.Outcome.next.inj ht; exact after_reset s
  | cmd w =>
    obtain ⟨i, -, hi⟩ | ⟨why, -, rfl⟩ := acceptWord_cases ht
    · exact h.after_exec hi
    · exact h.withError _

theorem after_step (h : CoreInvariant s) (ht : step s = .next t) : CoreInvariant t := by
  obtain ⟨-, rfl⟩ | ⟨e, rest, -, he⟩ := step_cases ht
  · exact h
  · exact (h.withHost rest).after_event he

end CoreInvariant

/-- Settles O53: the core's reset values, a command's failure and a command's rule each meet the invariant. -/
theorem everyStepKeepsTheInvariant : Obligations.EveryStepKeepsTheInvariant :=
  fun _ _ h ht => h.after_step ht

/-- Settles O52: after reset there is no error and nothing is valid. -/
theorem resetMeetsTheInvariant : Obligations.ResetMeetsTheInvariant :=
  fun host => (CoreInvariant.after_reset State.reset).withHost host

/-- The invariant holds in every state that a run reaches. -/
theorem coreInvariant_of_reachable {s : State} (h : Reachable s) : CoreInvariant s := by
  induction h with
  | atReset host => exact resetMeetsTheInvariant host
  | afterStep s t _ ht ih => exact ih.after_step ht

/-- A failing RUN leaves no snapshot, and a successful one leaves eleven (R190). -/
theorem execRun_snapCnt {s t : State} (h : exec .run s = .next t) :
    (t.errCode = .ok → t.snapCnt = 11) ∧ (t.errCode ≠ .ok → t.snapCnt = 0) := by
  refine ⟨fun hok => ?_, fun he => ?_⟩
  · cases completesTo_of_errCode h hok with
    | run hpt hkey => rfl
  · rw [eq_failed_of_errCode h he]; rfl

theorem execRdSnap_errCode {n b : BitVec 4} {s t : State} (h : exec (.rdSnap n b) s = .next t) :
    t.errCode = .ok ↔ n.toNat < s.snapCnt.val := by
  rw [exec_errCode h, commandError]
  split <;> simp <;> omega

/-- Settles O50: the command clauses by what CLR, RUN and RD_SNAP do, the last one by the invariant. -/
theorem snapshotCountIsZeroOrEleven : Obligations.SnapshotCountIsZeroOrEleven := by
  refine ⟨fun s t h => ?_, fun _ _ => execRun_snapCnt, fun _ _ _ _ => execRdSnap_errCode, rfl,
    fun _ h => (coreInvariant_of_reachable h).snapshotCount⟩
  obtain rfl := execClr_next.mp h
  rfl

end Sys2Proof.Machine

/-! The statements of spec/20_memory.md: the bytes pushed to an input buffer stand in it in the order of their
pushes. -/

namespace Sys2Proof.Machine

/-! ## A list of commands -/

/-- A list of commands that completes does so by its first command and then the others. -/
theorem execAll_cons_next {i : Instr} {is : List Instr} {s t : State}
    (h : execAll (i :: is) s = .next t) : ∃ r, exec i s = .next r ∧ execAll is r = .next t := by
  obtain ⟨r, hr⟩ := exec_completes i s
  exact ⟨r, hr, by simpa [execAll, hr] using h⟩

/-! ## What an input buffer holds -/

/-- The buffer `buf` with count `cnt` is what pushing the bytes `bs` to an empty buffer leaves: the count stops at
17, and only the first sixteen bytes are stored (R24, R53). -/
structure HoldsPushed (buf : Block) (cnt : Fin 18) (bs : List Byte) : Prop where
  count : cnt.val = min bs.length 17
  bytes : ∀ n, n < 16 → n < bs.length → buf[n]? = bs[n]?

theorem holdsPushed_nil (buf : Block) : HoldsPushed buf 0 [] := ⟨rfl, by simp⟩

/-- A push adds its byte at the end: below sixteen bytes at the count, and from then on outside the buffer
(R24). -/
theorem HoldsPushed.push {buf : Block} {cnt : Fin 18} {bs : List Byte} (h : HoldsPushed buf cnt bs)
    (d : Byte) : HoldsPushed (pushByte buf cnt d).1 (pushByte buf cnt d).2 (bs ++ [d]) := by
  obtain ⟨hcount, hbytes⟩ := h
  by_cases hlt : cnt.val < 16
  · have hlen : cnt.val = bs.length := by omega
    refine ⟨by simp [pushByte_of_lt d hlt, hlen]; omega, fun n hn hnlen => ?_⟩
    by_cases hlast : n = cnt.val
    · subst hlast
      simp [pushByte_of_lt d hlt, hlen]
    · have hold : n < bs.length := by simp at hnlen; omega
      rw [pushByte_getElem?_of_ne buf d hlast, List.getElem?_append_left hold, hbytes n hn hold]
  · have hge : 16 ≤ cnt.val := Nat.not_lt.mp hlt
    rw [pushByte_of_ge d hge]
    refine ⟨by simp; omega, fun n hn _ => ?_⟩
    have hold : n < bs.length := by omega
    rw [List.getElem?_append_left hold, hbytes n hn hold]

/-! ## Push order -/

/-- The byte a command pushes to the plaintext buffer. -/
def pushedPlaintext : Instr → Option Byte
  | .ptPush d => some d
  | _ => none

/-- The byte a command pushes to the key buffer. -/
def pushedKey : Instr → Option Byte
  | .keyPush d => some d
  | _ => none

/-- Pushes in any interleaving add to each buffer its own bytes in their order, because a push leaves the other
buffer and its count alone. -/
theorem execAll_holdsPushed {is : List Instr} {s t : State} {pts keys : List Byte}
    (hpush : ∀ i ∈ is, (∃ d, i = .ptPush d) ∨ ∃ d, i = .keyPush d) (h : execAll is s = .next t)
    (hpt : HoldsPushed s.ptb s.ptCnt pts) (hkey : HoldsPushed s.keyb s.keyCnt keys) :
    HoldsPushed t.ptb t.ptCnt (pts ++ is.filterMap pushedPlaintext)
      ∧ HoldsPushed t.keyb t.keyCnt (keys ++ is.filterMap pushedKey) := by
  induction is generalizing s pts keys with
  | nil =>
    obtain rfl := Host.Outcome.next.inj h
    simpa using ⟨hpt, hkey⟩
  | cons i is ih =>
    obtain ⟨hi, his⟩ := List.forall_mem_cons.mp hpush
    obtain ⟨r, hr, hrest⟩ := execAll_cons_next h
    obtain ⟨d, rfl⟩ | ⟨d, rfl⟩ := hi
    · obtain rfl := execPtPush_next.mp hr
      simpa [List.filterMap_cons, pushedPlaintext, pushedKey] using ih his hrest (hpt.push d) hkey
    · obtain rfl := execKeyPush_next.mp hr
      simpa [List.filterMap_cons, pushedPlaintext, pushedKey] using ih his hrest hpt (hkey.push d)

/-- Settles O14: counts of 0 say that nothing has been pushed, and each push adds its byte to its own buffer. -/
theorem pushOrderIsBufferOrder : Obligations.PushOrderIsBufferOrder := by
  intro is s t hpush hpt hkey h
  obtain ⟨⟨hptCnt, hptb⟩, ⟨hkeyCnt, hkeyb⟩⟩ := execAll_holdsPushed hpush h
    (hpt ▸ holdsPushed_nil s.ptb) (hkey ▸ holdsPushed_nil s.keyb)
  exact ⟨hptCnt, hkeyCnt, hptb, hkeyb⟩

end Sys2Proof.Machine

/-! The statements of spec/30_encoding.md: the opcode map, decoding and encoding, which words are illegal, the busy
port, and the assembler's words. -/

namespace Sys2Proof.Machine

/-! ## The fields of a word -/

@[simp] theorem fieldOpc_packWord (opc : BitVec 8) (a b : BitVec 4) (d : BitVec 8) :
    fieldOpc (packWord opc a b d) = opc := by
  refine BitVec.eq_of_getLsbD_eq fun i hi => ?_
  rw [getLsbD_fieldOpc _ hi, getLsbD_packWord]
  simp [show ¬ 24 + i < 8 by omega, show ¬ 24 + i < 12 by omega, show ¬ 24 + i < 16 by omega]

@[simp] theorem fieldRsv_packWord (opc : BitVec 8) (a b : BitVec 4) (d : BitVec 8) :
    fieldRsv (packWord opc a b d) = 0 := by
  refine BitVec.eq_of_getLsbD_eq fun i hi => ?_
  rw [getLsbD_fieldRsv _ hi, getLsbD_packWord]
  simp [show ¬ 16 + i < 8 by omega, show ¬ 16 + i < 12 by omega, show 16 + i < 24 by omega]

@[simp] theorem fieldA_packWord (opc : BitVec 8) (a b : BitVec 4) (d : BitVec 8) :
    fieldA (packWord opc a b d) = a := by
  refine BitVec.eq_of_getLsbD_eq fun i hi => ?_
  rw [getLsbD_fieldA _ hi, getLsbD_packWord]
  simp [show ¬ 12 + i < 8 by omega, show 12 + i < 16 by omega]

@[simp] theorem fieldB_packWord (opc : BitVec 8) (a b : BitVec 4) (d : BitVec 8) :
    fieldB (packWord opc a b d) = b := by
  refine BitVec.eq_of_getLsbD_eq fun i hi => ?_
  rw [getLsbD_fieldB _ hi, getLsbD_packWord]
  simp [show 8 + i < 12 by omega]

@[simp] theorem fieldD_packWord (opc : BitVec 8) (a b : BitVec 4) (d : BitVec 8) :
    fieldD (packWord opc a b d) = d := by
  refine BitVec.eq_of_getLsbD_eq fun i hi => ?_
  rw [getLsbD_fieldD _ hi, getLsbD_packWord, if_pos hi]

/-- A masked word is a word with zero `RSV` exactly when the mask leaves each of its fields (R71). -/
theorem and_eq_packWord_iff (w mask : Word) (opc : BitVec 8) (a b : BitVec 4) (d : BitVec 8) :
    w &&& mask = packWord opc a b d ↔
      fieldOpc w &&& fieldOpc mask = opc ∧ fieldRsv w &&& fieldRsv mask = 0
      ∧ fieldA w &&& fieldA mask = a ∧ fieldB w &&& fieldB mask = b
      ∧ fieldD w &&& fieldD mask = d := by
  have hopc : fieldOpc (w &&& mask) = fieldOpc w &&& fieldOpc mask := BitVec.extractLsb'_and
  have hrsv : fieldRsv (w &&& mask) = fieldRsv w &&& fieldRsv mask := BitVec.extractLsb'_and
  have ha : fieldA (w &&& mask) = fieldA w &&& fieldA mask := BitVec.extractLsb'_and
  have hb : fieldB (w &&& mask) = fieldB w &&& fieldB mask := BitVec.extractLsb'_and
  have hd : fieldD (w &&& mask) = fieldD w &&& fieldD mask := BitVec.extractLsb'_and
  rw [← hopc, ← hrsv, ← ha, ← hb, ← hd]
  constructor
  · intro h
    simp [h]
  · rintro ⟨rfl, hrsv, rfl, rfl, rfl⟩
    exact (packWord_fields hrsv).symm

/-! ## The rows of the opcode map -/

/-- The fields `A`, `B`, `D` that a form leaves without an operand are zero (R73). -/
def UnusedZero (f : OperandForm) (a b : BitVec 4) (d : BitVec 8) : Prop :=
  (f ∈ [.f0, .fd, .fb] → a = 0) ∧ (f ∈ [.f0, .fd, .fa] → b = 0)
    ∧ (f ∈ [.f0, .fa, .fb, .fab] → d = 0)

theorem unusedZero_zero (f : OperandForm) : UnusedZero f 0 0 0 :=
  ⟨fun _ => rfl, fun _ => rfl, fun _ => rfl⟩

/-- Every row's match word is its opcode alone, and its mask covers `OPC`, `RSV` and the fields its form leaves
without an operand (R73, R74). -/
theorem row_matchWord_mask : ∀ r ∈ opcodeMap,
    r.matchWord = packWord r.opc 0 0 0 ∧ fieldOpc r.mask = BitVec.allOnes 8
    ∧ fieldRsv r.mask = BitVec.allOnes 8
    ∧ fieldA r.mask = (if r.form ∈ [.f0, .fd, .fb] then BitVec.allOnes 4 else 0)
    ∧ fieldB r.mask = (if r.form ∈ [.f0, .fd, .fa] then BitVec.allOnes 4 else 0)
    ∧ fieldD r.mask = (if r.form ∈ [.f0, .fa, .fb, .fab] then BitVec.allOnes 8 else 0) := by
  decide

theorem and_ite_allOnes_eq_zero_iff {n : Nat} (x : BitVec n) (p : Prop) [Decidable p] :
    x &&& (if p then BitVec.allOnes n else 0) = 0 ↔ (p → x = 0) := by
  split <;> simp [*]

/-- A word matches a row exactly when it has the row's opcode, `RSV` is zero, and so is every field that the row's
form leaves without an operand (R73, R74). -/
theorem matchesWord_iff {r : OpcodeRow} (hr : r ∈ opcodeMap) (w : Word) :
    r.matchesWord w = true ↔ fieldOpc w = r.opc ∧ fieldRsv w = 0
      ∧ UnusedZero r.form (fieldA w) (fieldB w) (fieldD w) := by
  obtain ⟨hmatch, hopc, hrsv, ha, hb, hd⟩ := row_matchWord_mask r hr
  rw [OpcodeRow.matchesWord, beq_iff_eq, hmatch, and_eq_packWord_iff, hopc, hrsv, ha, hb, hd]
  simp only [BitVec.and_allOnes, and_ite_allOnes_eq_zero_iff, UnusedZero]

theorem opcodes_nodup : (opcodeMap.map (·.opc)).Nodup := by decide

/-- A row is known by its opcode (R74). -/
theorem row_eq_of_opc {r₁ r₂ : OpcodeRow} (h₁ : r₁ ∈ opcodeMap) (h₂ : r₂ ∈ opcodeMap)
    (h : r₁.opc = r₂.opc) : r₁ = r₂ :=
  List.inj_on_of_nodup_map opcodes_nodup h₁ h₂ h

/-- A word matches at most one row (R76). -/
theorem row_eq_of_matchesWord {r₁ r₂ : OpcodeRow} {w : Word} (hr₁ : r₁ ∈ opcodeMap)
    (hr₂ : r₂ ∈ opcodeMap) (h₁ : r₁.matchesWord w = true) (h₂ : r₂.matchesWord w = true) :
    r₁ = r₂ := by
  obtain ⟨hopc₁, -⟩ := (matchesWord_iff hr₁ w).mp h₁
  obtain ⟨hopc₂, -⟩ := (matchesWord_iff hr₂ w).mp h₂
  exact row_eq_of_opc hr₁ hr₂ (hopc₁.symm.trans hopc₂)

/-- Settles O4: a word that matches a row has the row's opcode, and the thirteen opcodes differ. -/
theorem opcodeMapHasThirteenDisjointRows : Obligations.OpcodeMapHasThirteenDisjointRows := by
  have hne : opcodeMap.Pairwise (fun r₁ r₂ => r₁.opc ≠ r₂.opc) := List.pairwise_map.mp opcodes_nodup
  refine ⟨rfl, hne, fun r hr => ?_, hne.imp_of_mem fun hr₁ hr₂ hopc w ⟨h₁, h₂⟩ => ?_,
    fun w r₁ hr₁ r₂ hr₂ h₁ h₂ => ?_⟩
  · obtain ⟨hmatch, hopc, -⟩ := row_matchWord_mask r hr
    exact ⟨hopc, by rw [hmatch, fieldOpc_packWord]⟩
  · exact hopc (congrArg _ (row_eq_of_matchesWord hr₁ hr₂ h₁ h₂))
  · rw [row_eq_of_matchesWord hr₁ hr₂ h₁ h₂]

/-! ## Decoding -/

/-- A word that matches a row decodes to the row's command with the word's operands (R72, R76). -/
theorem decode_of_matchesWord {r : OpcodeRow} {w : Word} (hr : r ∈ opcodeMap)
    (h : r.matchesWord w = true) :
    decode w = .command (r.build (fieldA w) (fieldB w) (fieldD w)) := by
  cases hfind : opcodeMap.find? (·.matchesWord w) with
  | none => exact absurd h (List.find?_eq_none.mp hfind r hr)
  | some r' =>
    have hmatch : r'.matchesWord w = true :=
      List.find?_some (p := fun r : OpcodeRow => r.matchesWord w) hfind
    obtain rfl := row_eq_of_matchesWord (List.mem_of_find?_eq_some hfind) hr hmatch h
    simp only [decode, hfind]

/-- A word that matches no row is illegal (R77). -/
theorem decode_of_no_match {w : Word} (h : ∀ r ∈ opcodeMap, ¬ r.matchesWord w = true) :
    ∃ why, decode w = .illegal why := by
  simp only [decode, List.find?_eq_none.mpr h]
  split
  · exact ⟨_, rfl⟩
  · exact ⟨_, rfl⟩

/-- A word is illegal exactly when it matches no row (R76, R77). -/
theorem illegal_iff (w : Word) :
    (∃ why, decode w = .illegal why) ↔ ∀ r ∈ opcodeMap, ¬ r.matchesWord w = true := by
  refine ⟨fun ⟨why, hwhy⟩ r hr hmatch => ?_, decode_of_no_match⟩
  rw [decode_of_matchesWord hr hmatch] at hwhy
  cases hwhy

/-- A word that decodes to a command matches a row that builds the command from the word's operands (R76). -/
theorem exists_row_of_command {w : Word} {i : Instr} (h : decode w = .command i) :
    ∃ r ∈ opcodeMap, r.matchesWord w = true
      ∧ r.build (fieldA w) (fieldB w) (fieldD w) = i := by
  by_contra! hno
  obtain ⟨why, hwhy⟩ := decode_of_no_match (w := w) fun r hr hmatch =>
    hno r hr hmatch (Decoded.command.inj ((decode_of_matchesWord hr hmatch).symm.trans h))
  rw [h] at hwhy
  cases hwhy

/-! ## Encoding -/

/-- The word of a row's command has the row's opcode and the operands in their fields, row by row (R71, R73). -/
theorem encode_build {r : OpcodeRow} (hr : r ∈ opcodeMap) {a b : BitVec 4} {d : BitVec 8}
    (h : UnusedZero r.form a b d) : encode (r.build a b d) = packWord r.opc a b d := by
  obtain ⟨ha, hb, hd⟩ := h
  fin_cases hr <;> simp_all [encode]

/-- Every command is a row's, and its operands leave the other fields zero (R72, R73, R74). -/
theorem exists_row_build (i : Instr) :
    ∃ r ∈ opcodeMap, ∃ a b d, UnusedZero r.form a b d ∧ r.build a b d = i := by
  cases i with
  | clr => exact ⟨opcodeMap[0], List.getElem_mem _, 0, 0, 0, unusedZero_zero _, rfl⟩
  | ptPush d =>
    exact ⟨opcodeMap[1], List.getElem_mem _, 0, 0, d, by simp [UnusedZero, opcodeMap], rfl⟩
  | keyPush d =>
    exact ⟨opcodeMap[2], List.getElem_mem _, 0, 0, d, by simp [UnusedZero, opcodeMap], rfl⟩
  | run => exact ⟨opcodeMap[3], List.getElem_mem _, 0, 0, 0, unusedZero_zero _, rfl⟩
  | ldst => exact ⟨opcodeMap[4], List.getElem_mem _, 0, 0, 0, unusedZero_zero _, rfl⟩
  | expand => exact ⟨opcodeMap[5], List.getElem_mem _, 0, 0, 0, unusedZero_zero _, rfl⟩
  | sub => exact ⟨opcodeMap[6], List.getElem_mem _, 0, 0, 0, unusedZero_zero _, rfl⟩
  | shr => exact ⟨opcodeMap[7], List.getElem_mem _, 0, 0, 0, unusedZero_zero _, rfl⟩
  | mix => exact ⟨opcodeMap[8], List.getElem_mem _, 0, 0, 0, unusedZero_zero _, rfl⟩
  | ark k =>
    exact ⟨opcodeMap[9], List.getElem_mem _, k, 0, 0, by simp [UnusedZero, opcodeMap], rfl⟩
  | rdState b =>
    exact ⟨opcodeMap[10], List.getElem_mem _, 0, b, 0, by simp [UnusedZero, opcodeMap], rfl⟩
  | rdSnap n b =>
    exact ⟨opcodeMap[11], List.getElem_mem _, n, b, 0, by simp [UnusedZero, opcodeMap], rfl⟩
  | rdRk k b =>
    exact ⟨opcodeMap[12], List.getElem_mem _, k, b, 0, by simp [UnusedZero, opcodeMap], rfl⟩

/-- Settles O2: a command's word is its row's opcode with the operands in their fields, so it matches this row, and
the fields give the operands back. -/
theorem decodeOfEncodeIsTheCommand : Obligations.DecodeOfEncodeIsTheCommand := by
  intro i
  obtain ⟨r, hr, a, b, d, hzero, rfl⟩ := exists_row_build i
  have hmatch : r.matchesWord (packWord r.opc a b d) = true := by
    rw [matchesWord_iff hr]
    simpa using hzero
  rw [encode_build hr hzero, decode_of_matchesWord hr hmatch]
  simp

/-- Settles O3: a word that matches a row is its own fields packed again, and so is the row's command's word. -/
theorem everyLegalWordIsItsCommandsEncoding : Obligations.EveryLegalWordIsItsCommandsEncoding := by
  intro w i h
  obtain ⟨r, hr, hmatch, rfl⟩ := exists_row_of_command h
  obtain ⟨hopc, hrsv, hzero⟩ := (matchesWord_iff hr w).mp hmatch
  rw [encode_build hr hzero, ← hopc, packWord_fields hrsv]

/-! ## Illegal words and the next state -/

/-- A field that must be zero is not (R77 (b)). -/
theorem not_unusedZero_iff (f : OperandForm) (rsv : BitVec 8) (a b : BitVec 4) (d : BitVec 8) :
    ¬ (rsv = 0 ∧ UnusedZero f a b d) ↔
      rsv ≠ 0 ∨ (f ∈ [.f0, .fd, .fb] ∧ a ≠ 0) ∨ (f ∈ [.f0, .fd, .fa] ∧ b ≠ 0)
        ∨ (f ∈ [.f0, .fa, .fb, .fab] ∧ d ≠ 0) := by
  simp only [UnusedZero, Classical.not_and_iff_not_or_not, Classical.not_imp, ne_eq]

/-- A word is illegal exactly when no row has its opcode, or a row has it and a field that must be zero is not
(R77). -/
theorem illegal_iff_opcode_or_field (w : Word) :
    (∃ why, decode w = .illegal why) ↔
      fieldOpc w ∉ opcodeMap.map (·.opc)
      ∨ ∃ r ∈ opcodeMap, r.opc = fieldOpc w
          ∧ ¬ (fieldRsv w = 0 ∧ UnusedZero r.form (fieldA w) (fieldB w) (fieldD w)) := by
  rw [illegal_iff]
  constructor
  · intro hno
    by_cases hopc : fieldOpc w ∈ opcodeMap.map (·.opc)
    · obtain ⟨r, hr, hopc⟩ := List.mem_map.mp hopc
      exact .inr ⟨r, hr, hopc, fun hok => hno r hr ((matchesWord_iff hr w).mpr ⟨hopc.symm, hok⟩)⟩
    · exact .inl hopc
  · intro hbad r hr hmatch
    obtain ⟨hopc, hok⟩ := (matchesWord_iff hr w).mp hmatch
    obtain hnone | ⟨r', hr', hopc', hfield⟩ := hbad
    · exact hnone (List.mem_map.mpr ⟨r, hr, hopc.symm⟩)
    · obtain rfl := row_eq_of_opc hr' hr (hopc'.trans hopc)
      exact hfield hok

/-- Settles O5: the illegal words are those that match no row, 243 opcodes are no row's by count, and each illegal
word has the effect of R78. -/
theorem illegalWordsExactlyAndTheirEffect : Obligations.IllegalWordsExactlyAndTheirEffect := by
  refine ⟨fun w => ?_, by decide +kernel, fun w why s h => ?_⟩
  · simp only [← not_unusedZero_iff]
    exact illegal_iff_opcode_or_field w
  · have haccept := acceptWord_of_illegal h s
    exact ⟨_, haccept, ⟨rfl, rfl⟩, writeMatrix.1 w why s _ h haccept⟩

/-- Settles O7: a word is accepted by its command's rule or by R78, and both complete, as every step does. -/
theorem everyWordHasItsDefinedNextState : Obligations.EveryWordHasItsDefinedNextState :=
  fun w s => ⟨fun _ h => acceptWord_of_command h s, fun _ h => acceptWord_of_illegal h s,
    acceptWord_completes w s, step_completes s⟩

/-- Settles O1, by running the decoder on R83's words. -/
theorem decodeReadsTheSpecsExampleWords : Obligations.DecodeReadsTheSpecsExampleWords := by
  unfold Obligations.DecodeReadsTheSpecsExampleWords
  decide

/-! ## The busy port -/

/-- Settles O54: a busy port's event and what it holds in progress come from `rst_n` and the command in progress
alone. -/
theorem busyPortIgnoresOffers : Obligations.BusyPortIgnoresOffers := by
  intro p b pin valid w hbusy
  have hready : cmdReady p pin.rstN = false := by simp [cmdReady, hbusy]
  have hevent : edgeEvent p { pin with cmdValid := valid, cmd := w } = edgeEvent p pin := rfl
  have hleft : edgeBusy p { pin with cmdValid := valid, cmd := w } = edgeBusy p pin := by
    simp [edgeBusy, hbusy]
  exact ⟨hready, by simp [acceptsAt, hready], by simp only [edge, hevent, hleft]⟩

/-! ## The assembler's words -/

theorem append_toNat {m n : Nat} (x : BitVec m) (y : BitVec n) :
    (x ++ y).toNat = x.toNat * 2 ^ n + y.toNat := by
  rw [BitVec.toNat_append, ← Nat.shiftLeft_add_eq_or_of_lt y.isLt, Nat.shiftLeft_eq]

/-- A packed word's value: each field times the weight of its lowest bit (R71). -/
theorem packWord_toNat (opc : BitVec 8) (a b : BitVec 4) (d : BitVec 8) :
    (packWord opc a b d).toNat
      = opc.toNat * 2 ^ 24 + a.toNat * 2 ^ 12 + b.toNat * 2 ^ 8 + d.toNat := by
  have h : (packWord opc a b d).toNat
      = (opc ++ (0 : BitVec 8) ++ a ++ b ++ d : BitVec (8 + 8 + 4 + 4 + 8)).toNat := rfl
  rw [h, append_toNat, append_toNat, append_toNat, append_toNat,
    show (0 : BitVec 8).toNat = 0 from rfl]
  omega

/-- A word whose operands are numbers that fit their fields (R71, R81). -/
theorem packWord_ofNat (opc : BitVec 8) {a b d : Nat} (ha : a ≤ 15) (hb : b ≤ 15) (hd : d ≤ 255) :
    packWord opc (indexField a) (indexField b) (BitVec.ofNat 8 d)
      = BitVec.ofNat 32 (opc.toNat * 2 ^ 24 + a * 2 ^ 12 + b * 2 ^ 8 + d) := by
  have hopc := opc.isLt
  apply BitVec.eq_of_toNat_eq
  rw [packWord_toNat]
  simp only [indexField, BitVec.toNat_ofNat]
  omega

theorem fitsDataField_iff (d : Nat) : fitsDataField d = true ↔ d ≤ 255 := by
  simp [fitsDataField]
  omega

theorem fitsIndexField_iff (n : Nat) : fitsIndexField n = true ↔ n ≤ 15 := by
  simp [fitsIndexField]
  omega

/-- The words of a well-formed line (R81). -/
theorem assembleLine_of_wellFormed (l : AsmLine) {words : List Word} (h : l.wellFormed = true)
    (hwords : (lineCommands l).map encode = words) : assembleLine l = some words := by
  rw [assembleLine, if_pos h, hwords]

/-- A line that stands for one command assembles to its word where the operands fit, and to nothing otherwise
(R81). -/
theorem assembleLine_single (l : AsmLine) {i : Instr} {w : Word} {fits : Prop} [Decidable fits]
    (hl : lineCommands l = [i]) (hfits : l.wellFormed = true ↔ fits) (hw : fits → encode i = w) :
    assembleLine l = if fits then some [w] else none := by
  by_cases hf : fits
  · rw [if_pos hf]
    exact assembleLine_of_wellFormed l (hfits.mpr hf) (by rw [hl, List.map_singleton, hw hf])
  · simp [assembleLine, mt hfits.mp hf, hf]

/-- Settles O58: a line is well formed exactly when its operands fit, and then its word is its command's, by the
value of a packed word. -/
theorem assemblerPlacesOperandsOrRejects : Obligations.AssemblerPlacesOperandsOrRejects := by
  refine ⟨rfl, rfl, rfl, rfl, rfl, rfl, rfl, fun d => ?_, fun d => ?_, fun k => ?_, fun b => ?_,
    fun n b => ?_, fun k b => ?_⟩
  · exact assembleLine_single (.ptPush d) rfl (fitsDataField_iff d) fun hd =>
      packWord_ofNat 0x02 (Nat.zero_le 15) (Nat.zero_le 15) hd
  · exact assembleLine_single (.keyPush d) rfl (fitsDataField_iff d) fun hd =>
      packWord_ofNat 0x03 (Nat.zero_le 15) (Nat.zero_le 15) hd
  · exact assembleLine_single (.ark k) rfl (fitsIndexField_iff k) fun hk =>
      packWord_ofNat 0x33 hk (Nat.zero_le 15) (Nat.zero_le 255)
  · exact assembleLine_single (.rdState b) rfl (fitsIndexField_iff b) fun hb =>
      packWord_ofNat 0x40 (Nat.zero_le 15) hb (Nat.zero_le 255)
  · exact assembleLine_single (.rdSnap n b) rfl (by simp [AsmLine.wellFormed, fitsIndexField_iff])
      fun ⟨hn, hb⟩ => packWord_ofNat 0x41 hn hb (Nat.zero_le 255)
  · exact assembleLine_single (.rdRk k b) rfl (by simp [AsmLine.wellFormed, fitsIndexField_iff])
      fun ⟨hk, hb⟩ => packWord_ofNat 0x42 hk hb (Nat.zero_le 255)

/-! ## The pseudo-instructions -/

/-- Bytes as hexadecimal digits, two each, the high one first (R12). -/
def hexOf (bs : List Byte) : List Nat := bs.flatMap fun d => [d.toNat / 16, d.toNat % 16]

/-- The words of the reads of bytes 0 to 15, from the word of the read of byte 0 (R71, R82). -/
def wordsOfReads (w : Word) : List Word :=
  (List.range 16).map fun b => w + BitVec.ofNat 32 (b * 2 ^ 8)

theorem hexBytes_hexOf (bs : List Byte) : hexBytes (hexOf bs) = bs := by
  induction bs with
  | nil => rfl
  | cons d bs ih =>
    have hd : BitVec.ofNat 8 (16 * (d.toNat / 16) + d.toNat % 16) = d := by
      rw [Nat.div_add_mod, BitVec.ofNat_toNat, BitVec.setWidth_eq]
    have htail : hexBytes (bs.flatMap fun d => [d.toNat / 16, d.toNat % 16]) = bs := ih
    simp [hexOf, hexBytes, hd, htail]

theorem length_hexOf (bs : List Byte) : (hexOf bs).length = 2 * bs.length := by
  simp [hexOf, List.length_flatMap, Nat.mul_comm]

/-- The digits of a block are a buffer in hexadecimal (R82). -/
theorem isHexBlock_hexOf (p : Block) : isHexBlock (hexOf p.toList) = true := by
  have hdigits : ∀ n ∈ hexOf p.toList, n < 16 := by
    intro n hn
    obtain ⟨d, -, hn⟩ := List.mem_flatMap.mp hn
    have hd := d.isLt
    simp only [List.mem_cons, List.not_mem_nil, or_false] at hn
    omega
  simpa [isHexBlock, length_hexOf] using hdigits

/-- A push's word is its opcode's plus the byte (R71). -/
theorem packWord_data (opc : BitVec 8) (d : Byte) :
    packWord opc 0 0 d = packWord opc 0 0 0 + d.setWidth 32 := by
  have hopc := opc.isLt
  have hd := d.isLt
  apply BitVec.eq_of_toNat_eq
  simp only [packWord_toNat, BitVec.toNat_add, BitVec.toNat_setWidth, BitVec.ofNat_eq_ofNat,
    BitVec.toNat_ofNat]
  omega

/-- The words of the pushes of a block's bytes, in order (R71, R82). -/
theorem encode_pushes {opc : BitVec 8} {push : Byte → Instr}
    (hpush : ∀ d, encode (push d) = packWord opc 0 0 d) (p : Block) :
    ((hexBytes (hexOf p.toList)).map push).map encode
      = p.toList.map fun d => packWord opc 0 0 0 + d.setWidth 32 := by
  rw [hexBytes_hexOf, List.map_map]
  exact List.map_congr_left fun d _ => (hpush d).trans (packWord_data opc d)

/-- The words of PT_LOAD (R82). -/
theorem encode_ptLoadCommands (p : Block) : (ptLoadCommands (hexOf p.toList)).map encode
    = p.toList.map fun d => 0x02000000 + d.setWidth 32 :=
  encode_pushes (opc := 0x02) (fun _ => rfl) p

/-- The words of KEY_LOAD (R82). -/
theorem encode_keyLoadCommands (key : Block) : (keyLoadCommands (hexOf key.toList)).map encode
    = key.toList.map fun d => 0x03000000 + d.setWidth 32 :=
  encode_pushes (opc := 0x03) (fun _ => rfl) key

/-- The words of the reads of bytes 0 to 15, with an index in field `A` (R71, R82). -/
theorem encode_reads {opc : BitVec 8} {n : Nat} {read : BitVec 4 → Instr} (hn : n ≤ 15)
    (hread : ∀ b, encode (read b) = packWord opc (indexField n) b 0) :
    (byteIndices.map read).map encode
      = wordsOfReads (BitVec.ofNat 32 (opc.toNat * 2 ^ 24 + n * 2 ^ 12)) := by
  rw [byteIndices, List.map_map, List.map_map]
  refine List.map_congr_left fun b hb => ?_
  have hb : b ≤ 15 := Nat.le_of_lt_succ (List.mem_range.mp hb)
  have hword := packWord_ofNat opc hn hb (Nat.zero_le 255)
  rw [Nat.add_zero, BitVec.ofNat_add] at hword
  exact (hread (indexField b)).trans hword

/-- The words of READ_STATE (R82). -/
theorem encode_readStateCommands : readStateCommands.map encode = wordsOfReads 0x40000000 := by
  exact encode_reads (opc := 0x40) (n := 0) (Nat.zero_le 15) fun _ => rfl

/-- Settles O59: each expansion's lines are well formed, and its words are those of its commands. -/
theorem pseudoInstructionsExpand : Obligations.PseudoInstructionsExpand := by
  refine ⟨fun p => ?_, fun key => ?_, ?_, fun n hn => ?_, fun k hk => ?_, fun p key => ?_,
    fun k hk => ?_, rfl⟩
  · exact assembleLine_of_wellFormed (.ptLoad (hexOf p.toList)) (isHexBlock_hexOf p)
      (encode_ptLoadCommands p)
  · exact assembleLine_of_wellFormed (.keyLoad (hexOf key.toList)) (isHexBlock_hexOf key)
      (encode_keyLoadCommands key)
  · exact assembleLine_of_wellFormed .readState rfl encode_readStateCommands
  · exact assembleLine_of_wellFormed (.readSnap n) ((fitsIndexField_iff n).mpr hn)
      (encode_reads (opc := 0x41) hn fun _ => rfl)
  · exact assembleLine_of_wellFormed (.readRk k) ((fitsIndexField_iff k).mpr hk)
      (encode_reads (opc := 0x42) hk fun _ => rfl)
  · refine assembleLine_of_wellFormed (.encrypt (hexOf p.toList) (hexOf key.toList)) ?_ ?_
    · simp [AsmLine.wellFormed, isHexBlock_hexOf]
    · simp only [lineCommands, List.map_append, encode_ptLoadCommands, encode_keyLoadCommands,
        encode_readStateCommands]
      rfl
  · refine assembleLine_of_wellFormed (.round k) ((fitsIndexField_iff k).mpr hk) ?_
    have hark : encode (.ark (indexField k)) = BitVec.ofNat 32 (0x33000000 + k * 2 ^ 12) :=
      packWord_ofNat 0x33 hk (Nat.zero_le 15) (Nat.zero_le 255)
    rw [← hark]
    rfl

end Sys2Proof.Machine

/-! The statements of spec/40_codec.md: the loads and the read-outs, the counts the consuming commands check and clear,
the codec's round trips, and that a host reads back what it pushed. -/

namespace Sys2Proof.Machine

/-! ## Command words -/

/-- A packed word as its fields shifted into place (R71). -/
theorem packWord_eq_or (opc : BitVec 8) (a b : BitVec 4) (d : BitVec 8) :
    packWord opc a b d = packWord opc 0 0 0 ||| (a.setWidth 32 <<< 12) ||| (b.setWidth 32 <<< 8)
      ||| d.setWidth 32 := by
  apply BitVec.eq_of_getLsbD_eq
  intro i hi
  have hd := BitVec.getLsbD_of_ge d i
  have hb := BitVec.getLsbD_of_ge b (i - 8)
  have ha := BitVec.getLsbD_of_ge a (i - 12)
  simp only [BitVec.getLsbD_or, BitVec.getLsbD_shiftLeft, BitVec.getLsbD_setWidth, getLsbD_packWord]
  split_ifs <;> grind

/-- The word of a read with both indices (R71, R73). -/
theorem packWord_indices (opc : BitVec 8) (a b : BitVec 4) :
    packWord opc a b 0
      = packWord opc 0 0 0 ||| (a.setWidth 32 <<< 12) ||| (b.setWidth 32 <<< 8) := by
  simpa using packWord_eq_or opc a b 0

/-! ## Pushes -/

/-- What a push below sixteen bytes leaves in its buffer, address by address (R24). -/
theorem pushByte_getElem? (buf : Block) {cnt : Fin 18} (d : Byte) (h : cnt.val < 16) (a : Nat) :
    (pushByte buf cnt d).1[a]? = if a = cnt.val then some d else buf[a]? := by
  by_cases ha : a = cnt.val
  · subst ha
    simp [pushByte_of_lt d h]
  · rw [if_neg ha, pushByte_getElem?_of_ne buf d ha]

theorem pushByte_count (buf : Block) {cnt : Fin 18} (d : Byte) (h : cnt.val < 16) :
    (pushByte buf cnt d).2.val = cnt.val + 1 := by
  rw [pushByte_of_lt d h]

/-- Settles O12, by what a push leaves below sixteen bytes and from there on. -/
theorem ptPushAppendsAByte : Obligations.PtPushAppendsAByte := by
  intro d s
  refine ⟨(packWord_eq_or 0x02 0 0 d).trans rfl, _, execPtPush_next.mpr rfl, fun hlt => ?_,
    fun hge => ?_, ⟨rfl, rfl⟩, ⟨fun _ => rfl, rfl⟩, fun _ => rfl, ⟨fun _ => rfl, rfl⟩,
    ⟨fun _ => rfl, rfl⟩, rfl, rfl⟩
  · exact ⟨pushByte_count s.ptb d hlt, pushByte_getElem? s.ptb d hlt⟩
  · simp [pushByte_of_ge d hge, sameBytes_ptb_iff]

/-- Settles O13, by what a push leaves below sixteen bytes and from there on. -/
theorem keyPushAppendsAByte : Obligations.KeyPushAppendsAByte := by
  intro d s
  refine ⟨(packWord_eq_or 0x03 0 0 d).trans rfl, _, execKeyPush_next.mpr rfl, fun hlt => ?_,
    fun hge => ?_, ⟨rfl, rfl⟩, ⟨fun _ => rfl, rfl⟩, fun _ => rfl, ⟨fun _ => rfl, rfl⟩,
    ⟨fun _ => rfl, rfl⟩, rfl, rfl⟩
  · exact ⟨pushByte_count s.keyb d hlt, pushByte_getElem? s.keyb d hlt⟩
  · simp [pushByte_of_ge d hge, sameBytes_keyb_iff]

/-! ## The consuming commands -/

/-- Settles O16, by the two cases of LDST. -/
theorem ldstLoadsThePlaintext : Obligations.LdstLoadsThePlaintext := by
  refine ⟨rfl, fun s hpt => ?_, fun s hpt => ?_⟩
  · refine ⟨_, execLdst_next.mpr (if_pos hpt).symm, rfl, fun r c => cell_toMatrix s.ptb r c, ⟨rfl, rfl⟩,
      fun _ => rfl, ⟨fun _ => rfl, rfl⟩, ⟨fun _ => rfl, rfl⟩, ⟨fun _ => rfl, rfl⟩, rfl, rfl⟩
  · refine ⟨_, execLdst_next.mpr (if_neg hpt).symm, rfl, fun _ => rfl, ⟨rfl, rfl⟩,
      fun _ => rfl, ⟨fun _ => rfl, rfl⟩, ⟨fun _ => rfl, rfl⟩, ⟨fun _ => rfl, rfl⟩, rfl, rfl⟩

/-- A round-key index never makes an input-length error (R222). -/
theorem roundKeyError_ne_inputLength (k : BitVec 4) (s : State) :
    roundKeyError k s ≠ .inputLength := by
  unfold roundKeyError
  split_ifs <;> simp

/-- A command must report `INPUT_LENGTH` exactly when a count it consumes is not 16 (R106, R222). -/
theorem commandError_eq_inputLength_iff (i : Instr) (s : State) :
    commandError i s = .inputLength ↔
      (i = .ldst ∨ i = .run) ∧ s.ptCnt ≠ 16 ∨ (i = .expand ∨ i = .run) ∧ s.keyCnt ≠ 16 := by
  cases i with
  | run => simp [commandError, imp_iff_not_or]
  | ldst => simp [commandError]
  | expand => simp [commandError]
  | ark k => simp [commandError, roundKeyError_ne_inputLength]
  | rdRk k b => simp [commandError, roundKeyError_ne_inputLength]
  | rdSnap n b => simp only [commandError]; split_ifs <;> simp
  | _ => simp [commandError]

/-- LDST and RUN consume the plaintext, whether they succeed or fail (R106). -/
theorem exec_consumes_plaintext {i : Instr} {s t : State} (h : exec i s = .next t)
    (hi : i = .ldst ∨ i = .run) : t.ptCnt = 0 := by
  obtain ⟨-, ht⟩ | ⟨-, rfl⟩ := exec_cases h
  · obtain rfl | rfl := hi <;> cases ht <;> rfl
  · obtain rfl | rfl := hi <;> rfl

/-- EXPAND and RUN consume the key, whether they succeed or fail (R106). -/
theorem exec_consumes_key {i : Instr} {s t : State} (h : exec i s = .next t)
    (hi : i = .expand ∨ i = .run) : t.keyCnt = 0 := by
  obtain ⟨-, ht⟩ | ⟨-, rfl⟩ := exec_cases h
  · obtain rfl | rfl := hi <;> cases ht <;> rfl
  · obtain rfl | rfl := hi <;> rfl

/-- Settles O17: the error code says which case it is, and a failing command keeps the results. -/
theorem consumersCheckAndClearTheirCounts : Obligations.ConsumersCheckAndClearTheirCounts := by
  intro i s t h
  have herr := commandError_eq_inputLength_iff i s
  rw [← exec_errCode h] at herr
  refine ⟨exec_consumes_plaintext h, exec_consumes_key h, fun hbad => ?_, fun hpt hkey hlen => ?_⟩
  · have hlen := herr.mpr hbad
    obtain rfl := eq_failed_of_errCode h (by simp [hlen])
    exact ⟨⟨hlen, rfl⟩, sameBytes_state_iff.mpr (failed_state i s),
      sameBytes_rks_iff.mpr (failed_rks i s), sameBytes_snb_iff.mpr (failed_snb i s)⟩
  · obtain ⟨hi, hne⟩ | ⟨hi, hne⟩ := herr.mp hlen
    · exact hne (hpt hi)
    · exact hne (hkey hi)

/-! ## The read-outs -/

/-- A command that writes `RDATA` alone and completes keeps everything else (R108). -/
theorem sameAllButReadout_of_read (s : State) (d : Byte) :
    SameAllButReadout s { s with rdata := d, errCode := .ok } :=
  ⟨⟨fun _ => rfl, rfl⟩, ⟨fun _ => rfl, rfl⟩, fun _ => rfl, ⟨fun _ => rfl, rfl⟩,
    ⟨fun _ => rfl, rfl⟩, rfl⟩

/-- An error that comes with no write keeps everything else (R16). -/
theorem sameAllButStatus_of_error (s : State) (e : ErrCode) :
    SameAllButStatus s { s with errCode := e, errSticky := true } :=
  ⟨⟨fun _ => rfl, rfl⟩, ⟨fun _ => rfl, rfl⟩, fun _ => rfl, ⟨fun _ => rfl, rfl⟩,
    ⟨fun _ => rfl, rfl⟩, rfl, rfl⟩

/-- Settles O18: the read gives the working state's byte and keeps the rest. -/
theorem rdStateReadsAByte : Obligations.RdStateReadsAByte := fun b s =>
  ⟨(packWord_indices 0x40 0 b).trans rfl, _, execRdState_next.mpr rfl,
    memRead_state_fin s (byteOperand b), ⟨rfl, rfl⟩, sameAllButReadout_of_read s _⟩

theorem exec_rdSnap_of_some {n b : BitVec 4} {s : State} {entry : Fin 11}
    (h : snapshotOperand n s.snapCnt = some entry) : exec (.rdSnap n b) s =
      .next { s with rdata := matrixByte (s.snb.get entry) (byteOperand b), errCode := .ok } :=
  execRdSnap_next.mpr (by rw [h])

theorem exec_rdSnap_of_none {n b : BitVec 4} {s : State} (h : snapshotOperand n s.snapCnt = none) :
    exec (.rdSnap n b) s = .next { s with errCode := .indexRange, errSticky := true } :=
  execRdSnap_next.mpr (by rw [h])

/-- Settles O19, by whether the index names a snapshot. -/
theorem rdSnapReadsAByteOrReportsTheIndex : Obligations.RdSnapReadsAByteOrReportsTheIndex := by
  intro n b s
  refine ⟨packWord_indices 0x41 n b, fun hlt => ?_, fun hge => ?_⟩
  · exact ⟨_, exec_rdSnap_of_some (snapshotOperand_of_lt hlt),
      storeByte_entry s.snb ⟨n.toNat, by omega⟩ (byteOperand b), ⟨rfl, rfl⟩,
      sameAllButReadout_of_read s _⟩
  · exact ⟨_, exec_rdSnap_of_none (snapshotOperand_of_ge hge), ⟨rfl, rfl⟩,
      sameAllButStatus_of_error s _⟩

theorem exec_rdRk_of_valid {k b : BitVec 4} {s : State} {entry : Fin 11}
    (h : roundKeyOperand k = some entry) (hvalid : s.rkValid = true) : exec (.rdRk k b) s =
      .next { s with rdata := matrixByte (s.rks.get entry) (byteOperand b), errCode := .ok } :=
  execRdRk_next.mpr (by rw [h]; exact (if_pos hvalid).symm)

theorem exec_rdRk_of_invalid {k b : BitVec 4} {s : State} {entry : Fin 11}
    (h : roundKeyOperand k = some entry) (hvalid : s.rkValid = false) : exec (.rdRk k b) s =
      .next { s with errCode := .rkInvalid, errSticky := true } :=
  execRdRk_next.mpr (by rw [h]; exact (if_neg (by simp [hvalid])).symm)

theorem exec_rdRk_of_none {k b : BitVec 4} {s : State} (h : roundKeyOperand k = none) :
    exec (.rdRk k b) s = .next { s with errCode := .indexRange, errSticky := true } :=
  execRdRk_next.mpr (by rw [h])

/-- Settles O20, by the range of the index and then the schedule's valid flag (R223). -/
theorem rdRkReadsAByteOrReportsTheError : Obligations.RdRkReadsAByteOrReportsTheError := by
  intro k b s
  refine ⟨packWord_indices 0x42 k b, fun hle hvalid => ?_, fun hle hvalid => ?_, fun hgt => ?_⟩
  · exact ⟨_, exec_rdRk_of_valid (roundKeyOperand_of_le hle) hvalid,
      storeByte_entry s.rks ⟨k.toNat, by omega⟩ (byteOperand b), ⟨rfl, rfl⟩,
      sameAllButReadout_of_read s _⟩
  · exact ⟨_, exec_rdRk_of_invalid (roundKeyOperand_of_le hle) hvalid, ⟨rfl, rfl⟩,
      sameAllButStatus_of_error s _⟩
  · exact ⟨_, exec_rdRk_of_none (roundKeyOperand_of_gt hgt), ⟨rfl, rfl⟩,
      sameAllButStatus_of_error s _⟩

/-! ## The codec -/

/-- Settles O21: byte `n` of a buffer is byte `n` of its matrix, either way. -/
theorem codecRoundTrips : Obligations.CodecRoundTrips := by
  refine ⟨fun buf => block_ext fun n hn => ?_, fun m => matrix_ext_bytes fun n => by simp⟩
  have hbyte : (toBuffer (toMatrix buf)).get ⟨n, hn⟩ = buf.get ⟨n, hn⟩ := by simp
  simpa [Vector.get_eq_getElem, hn] using hbyte

/-! ## The ciphertext -/

/-- The state at the end of round 9, which the final round starts from (R191, R192). -/
def stateBeforeLastRound (p : ByteMatrix) (rk : MatrixStore) : ByteMatrix :=
  [2, 3, 4, 5, 6, 7, 8, 9].foldl (fullRound rk) (fullRound rk (addRoundKey p (rk.get 0)) 1)

/-- The ciphertext (R193). -/
def ciphertextOf (p : ByteMatrix) (rk : MatrixStore) : ByteMatrix :=
  addRoundKey (shiftRows (subBytes (stateBeforeLastRound p rk))) (rk.get 10)

/-- The whole sequence: its last state and its eleven snapshots (R191, R195). -/
theorem encryptTrace_eq (p : ByteMatrix) (rk : MatrixStore) :
    encryptTrace p rk =
      let first := addRoundKey p (rk.get 0)
      let last := stateBeforeLastRound p rk
      ⟨ciphertextOf p rk,
        [p, first, subBytes first, shiftRows (subBytes first), mixColumns (shiftRows (subBytes first)),
          fullRound rk first 1, last, subBytes last, shiftRows (subBytes last),
          ciphertextOf p rk, ciphertextOf p rk]⟩ := by
  rw [encryptTrace, middleRounds, List.foldl_cons, openingTrace_eq, middleRound_one,
    foldl_middleRound_later _ _ _ (by decide), closingTrace_eq]
  rfl

theorem encrypt_snaps_nine (p key : ByteMatrix) :
    (encrypt p key).snaps.get 9 = (encrypt p key).st := by
  simp [encrypt, snapshotStore, encryptTrace_eq]

theorem encrypt_snaps_ten (p key : ByteMatrix) :
    (encrypt p key).snaps.get 10 = (encrypt p key).st := by
  simp [encrypt, snapshotStore, encryptTrace_eq]

/-- Settles O42: the sequence records its last state as snapshots 9 and 10. -/
theorem ciphertextIsInStateAndLastSnapshots : Obligations.CiphertextIsInStateAndLastSnapshots := by
  intro s hpt hkey
  refine ⟨_, execRun_next.mpr (if_pos ⟨hpt, hkey⟩).symm, fun b hb => ?_⟩
  rw [memRead_state_fin _ ⟨b, hb⟩]
  exact ⟨((storeByte_entry _ 9 ⟨b, hb⟩).trans (by rw [encrypt_snaps_nine])).symm,
    ((storeByte_entry _ 10 ⟨b, hb⟩).trans (by rw [encrypt_snaps_ten])).symm⟩

/-! ## A host program of commands -/

/-- The word of a command is accepted as the command (R76). -/
theorem acceptWord_encode (i : Instr) (s : State) : acceptWord (encode i) s = exec i s :=
  acceptWord_of_command (decodeOfEncodeIsTheCommand i) s

theorem runProgram_cons {w : Word} {ws : List Word} {s t : State} {r : ProgramRun}
    (ht : acceptWord w s = .next t) (hr : runProgram ws t = .next r) :
    runProgram (w :: ws) s = .next ⟨r.final, observe t :: r.seen⟩ := by
  simp [runProgram, ht, hr]

/-- Every host program completes (R11). -/
theorem runProgram_completes (ws : List Word) (s : State) : ∃ r, runProgram ws s = .next r := by
  induction ws generalizing s with
  | nil => exact ⟨_, rfl⟩
  | cons w ws ih =>
    obtain ⟨t, ht⟩ := acceptWord_completes w s
    obtain ⟨r, hr⟩ := ih t
    exact ⟨_, runProgram_cons ht hr⟩

/-- A program shows one observation per word (R10). -/
theorem runProgram_seen_length {ws : List Word} {s : State} {r : ProgramRun}
    (h : runProgram ws s = .next r) : r.seen.length = ws.length := by
  induction ws generalizing s r with
  | nil => obtain rfl := Host.Outcome.next.inj h; rfl
  | cons w ws ih =>
    obtain ⟨t, r', -, hr', -, hseen⟩ := runProgram_cons_next h
    rw [hseen, List.length_cons, List.length_cons, ih hr']

/-- A program in two parts runs the second from where the first ends. -/
theorem runProgram_append_next {ws ws' : List Word} {s : State} {r : ProgramRun}
    (h : runProgram (ws ++ ws') s = .next r) :
    ∃ r₁ r₂, runProgram ws s = .next r₁ ∧ runProgram ws' r₁.final = .next r₂
      ∧ r.final = r₂.final ∧ r.seen = r₁.seen ++ r₂.seen := by
  induction ws generalizing s r with
  | nil => exact ⟨_, r, rfl, h, rfl, rfl⟩
  | cons w ws ih =>
    obtain ⟨t, r', ht, hr', hfinal, hseen⟩ := runProgram_cons_next h
    obtain ⟨r₁, r₂, h₁, h₂, hfinal', hseen'⟩ := ih hr'
    exact ⟨_, r₂, runProgram_cons ht h₁, h₂, hfinal.trans hfinal', by simp [hseen, hseen']⟩

/-- The program of a list of commands ends where the commands end. -/
theorem execAll_of_runProgram {is : List Instr} {s : State} {r : ProgramRun}
    (h : runProgram (is.map encode) s = .next r) : execAll is s = .next r.final := by
  induction is generalizing s r with
  | nil => obtain rfl := Host.Outcome.next.inj h; rfl
  | cons i is ih =>
    obtain ⟨t, r', ht, hr', hfinal, -⟩ := runProgram_cons_next h
    rw [acceptWord_encode] at ht
    simp [execAll, ht, ih hr', hfinal]

/-- The samples of a list of reads: each gives the byte its index names, as long as every read keeps what the reads
depend on (R30). -/
theorem runProgram_reads {read : BitVec 4 → Instr} {P : State → Prop} {byte : BitVec 4 → Byte}
    (hread : ∀ b s t, P s → exec (read b) s = .next t → P t ∧ t.rdata = byte b)
    {bs : List (BitVec 4)} {s : State} {r : ProgramRun} (hs : P s)
    (h : runProgram ((bs.map read).map encode) s = .next r) :
    r.seen.map (·.rdata) = bs.map byte := by
  induction bs generalizing s r with
  | nil => obtain rfl := Host.Outcome.next.inj h; rfl
  | cons b bs ih =>
    obtain ⟨t, r', ht, hr', -, hseen⟩ := runProgram_cons_next h
    rw [acceptWord_encode] at ht
    obtain ⟨hP, hbyte⟩ := hread b s t hs ht
    rw [hseen, List.map_cons, List.map_cons, ih hP hr', ← hbyte]
    rfl

/-! ## Reading back a pushed block -/

theorem execAll_append_next {is is' : List Instr} {s t : State}
    (h : execAll (is ++ is') s = .next t) :
    ∃ u, execAll is s = .next u ∧ execAll is' u = .next t := by
  induction is generalizing s with
  | nil => exact ⟨s, rfl, h⟩
  | cons i is ih =>
    obtain ⟨v, hv, hrest⟩ := execAll_cons_next h
    obtain ⟨u, hu, hu'⟩ := ih hrest
    exact ⟨u, by simp [execAll, hv, hu], hu'⟩

/-- Plaintext pushes add their bytes in order, whatever the key buffer holds (R53). -/
theorem execAll_ptPushes {bs pts : List Byte} {s t : State}
    (h : execAll (bs.map .ptPush) s = .next t) (hpt : HoldsPushed s.ptb s.ptCnt pts) :
    HoldsPushed t.ptb t.ptCnt (pts ++ bs) := by
  induction bs generalizing s pts with
  | nil => obtain rfl := Host.Outcome.next.inj h; simpa using hpt
  | cons d bs ih =>
    obtain ⟨u, hu, hrest⟩ := execAll_cons_next h
    obtain rfl := execPtPush_next.mp hu
    simpa using ih hrest (hpt.push d)

/-- A buffer that holds the sixteen bytes of a block is the block, and its count is 16. -/
theorem HoldsPushed.block {buf p : Block} {cnt : Fin 18} (h : HoldsPushed buf cnt p.toList) :
    cnt = 16 ∧ buf = p := by
  obtain ⟨hcount, hbytes⟩ := h
  refine ⟨Fin.ext (by simpa using hcount), block_ext fun n hn => ?_⟩
  simpa using hbytes n hn (by simpa using hn)

/-- Pushing a block and LDST leave the block's matrix in the working state (R104). -/
theorem execAll_load {p : Block} {s t : State} (hs : s.ptCnt = 0)
    (h : execAll (p.toList.map Instr.ptPush ++ [Instr.ldst]) s = .next t) :
    t.state = toMatrix p := by
  obtain ⟨u, hpushes, hload⟩ := execAll_append_next h
  obtain ⟨hcnt, hbuf⟩ := (execAll_ptPushes hpushes (hs ▸ holdsPushed_nil s.ptb)).block
  obtain ⟨v, hv, hvt⟩ := execAll_cons_next hload
  obtain rfl := Host.Outcome.next.inj hvt
  rw [execLdst_next.mp hv, if_pos hcnt, hbuf]

/-- The sixteen byte indices list a block's bytes in order (R13). -/
theorem byteIndices_map_get (p : Block) :
    byteIndices.map (fun b => p.get (byteOperand b)) = p.toList := by
  apply List.ext_getElem (by simp [byteIndices])
  intro n hn _
  have hn : n < 16 := by simpa [byteIndices] using hn
  have hval : (byteOperand (indexField n)).val = n := by
    simpa [byteOperand, indexField] using hn
  simp [byteIndices, Vector.get_eq_getElem, hval]

/-- Settles O22: the pushes and LDST leave the block's matrix in the working state, the reads sample its bytes, and
the first 17 samples are those of the pushes and LDST. -/
theorem hostReadsBackThePushedBlock : Obligations.HostReadsBackThePushedBlock := by
  intro p s hs
  obtain ⟨r, hr⟩ := runProgram_completes
    ((p.toList.map Instr.ptPush ++ [Instr.ldst] ++ readStateCommands).map encode) s
  refine ⟨r, hr, ?_⟩
  rw [List.map_append] at hr
  obtain ⟨load, reads, hload, hreads, -, hseen⟩ := runProgram_append_next hr
  have hlen : load.seen.length = 17 := by simpa using runProgram_seen_length hload
  have hstate : load.final.state = toMatrix p := execAll_load hs (execAll_of_runProgram hload)
  have hsamples : reads.seen.map (·.rdata) = byteIndices.map fun b => p.get (byteOperand b) := by
    refine runProgram_reads (P := fun u => u.state = toMatrix p) (fun b u t hu ht => ?_) hstate hreads
    obtain rfl := execRdState_next.mp ht
    exact ⟨hu, by simp [hu]⟩
  rw [hseen, ← hlen, List.drop_left, hsamples, byteIndices_map_get]

end Sys2Proof.Machine

/-! The statements of spec/41_round_transforms.md: the laws of the field, the S-box as its construction and as a
permutation, the four transforms and their commands, and the lane view. -/

namespace Sys2Proof.Machine

/-! ## The field -/

theorem xtime_xor (a b : Byte) : xtime (a ^^^ b) = xtime a ^^^ xtime b := by
  have hred : (if (a.getLsbD 7 ^^ b.getLsbD 7) then 0x1b else 0x00 : Byte)
      = (if a.getLsbD 7 then 0x1b else 0x00) ^^^ (if b.getLsbD 7 then 0x1b else 0x00) := by
    cases a.getLsbD 7 <;> cases b.getLsbD 7 <;> rfl
  rw [xtime, BitVec.getLsbD_xor, hred, BitVec.shiftLeft_xor_distrib, xtime, xtime]
  ac_rfl

/-- The loop's result is additive in the partial product and the multiplicand together (R135). -/
theorem gmulLoop_xor (n : Nat) (p p' a a' b : Byte) :
    gmulLoop n (p ^^^ p') (a ^^^ a') b = gmulLoop n p a b ^^^ gmulLoop n p' a' b := by
  induction n generalizing p p' a a' b with
  | zero => rfl
  | succ n ih =>
    have hturn : (p ^^^ p') ^^^ (a ^^^ a') = (p ^^^ a) ^^^ (p' ^^^ a') := by ac_rfl
    cases hb : b[0] <;> simp [gmulLoop, hb, xtime_xor, hturn, ih]

theorem xor_gmul (a a' b : Byte) : gmul (a ^^^ a') b = gmul a b ^^^ gmul a' b :=
  gmulLoop_xor 8 0 0 a a' b

/-- A map of bytes that is linear over the field: it keeps sums and doublings. -/
structure FieldLinear (f : Byte → Byte) : Prop where
  map_xor : ∀ a b, f (a ^^^ b) = f a ^^^ f b
  map_xtime : ∀ a, f (xtime a) = xtime (f a)

namespace FieldLinear

variable {f : Byte → Byte}

theorem map_zero (h : FieldLinear f) : f 0 = 0 := by
  simpa using h.map_xor 0 0

/-- A linear map passes through every turn of the loop of R135. -/
theorem map_gmulLoop (h : FieldLinear f) (n : Nat) (p a b : Byte) :
    f (gmulLoop n p a b) = gmulLoop n (f p) (f a) b := by
  induction n generalizing p a b with
  | zero => rfl
  | succ n ih => cases hb : b[0] <;> simp [gmulLoop, hb, ih, h.map_xor, h.map_xtime]

/-- A linear map passes from the product to the multiplicand. -/
theorem map_gmul (h : FieldLinear f) (a b : Byte) : f (gmul a b) = gmul (f a) b := by
  rw [gmul, h.map_gmulLoop, h.map_zero, gmul]

end FieldLinear

theorem fieldLinear_xtime : FieldLinear xtime := ⟨xtime_xor, fun _ => rfl⟩

/-- Multiplication by a fixed byte is linear in the multiplicand. -/
theorem fieldLinear_gmul_right (b : Byte) : FieldLinear (gmul · b) :=
  ⟨fun a a' => xor_gmul a a' b, fun a => (fieldLinear_xtime.map_gmul a b).symm⟩

theorem zero_gmul (a : Byte) : gmul 0 a = 0 := (fieldLinear_gmul_right a).map_zero

/-- The loop adds up the powers of 2 in the multiplier. -/
theorem one_gmul : ∀ a : Byte, gmul 1 a = a := by decide +kernel

/-- Two multipliers can be applied in either order. -/
theorem gmul_right_comm (a b c : Byte) : gmul (gmul a b) c = gmul (gmul a c) b :=
  (fieldLinear_gmul_right c).map_gmul a b

theorem gmul_comm (a b : Byte) : gmul a b = gmul b a := by
  simpa only [one_gmul] using gmul_right_comm 1 a b

theorem gmul_assoc (a b c : Byte) : gmul (gmul a b) c = gmul a (gmul b c) := by
  rw [gmul_comm a b, gmul_right_comm, gmul_comm]

theorem gmul_xor (a b c : Byte) : gmul a (b ^^^ c) = gmul a b ^^^ gmul a c := by
  simpa only [gmul_comm a] using xor_gmul b c a

/-- Settles O31: the laws follow from linearity in the multiplicand and from 1 being neutral. -/
theorem fieldLaws : Obligations.FieldLaws :=
  ⟨gmul_comm, gmul_assoc, gmul_xor, zero_gmul, one_gmul, by decide, by decide, by decide,
    by decide, by decide⟩

theorem two_gmul (a : Byte) : gmul 2 a = xtime a := by
  have htwo : (2 : Byte) = xtime 1 := rfl
  rw [htwo, ← fieldLinear_xtime.map_gmul, one_gmul]

theorem three_gmul (a : Byte) : gmul 3 a = xtime a ^^^ a := by
  have hthree : (3 : Byte) = 2 ^^^ 1 := rfl
  rw [hthree, xor_gmul, two_gmul, one_gmul]

/-- Settles O30: 2 is the double of 1, and 3 is 2 plus 1. -/
theorem constantMultipliersAgreeWithTheProduct : Obligations.ConstantMultipliersAgreeWithTheProduct :=
  fun a => ⟨one_gmul a, two_gmul a, three_gmul a⟩

/-! ## The S-box -/

/-- The inverse of the affine map of R132: the rotations by 1, 3 and 6 and the constant 0x05. -/
def sBoxAffineInverse (b : Byte) : Byte := rotl8 b 1 ^^^ rotl8 b 3 ^^^ rotl8 b 6 ^^^ 0x05

theorem sBoxAffine_sBoxAffineInverse : ∀ b : Byte, sBoxAffine (sBoxAffineInverse b) = b := by
  decide +kernel

/-- `inv(x)` of R132 as the table has it: the entry of `x` with the affine map undone. -/
def byteInverse (x : Byte) : Byte := sBoxAffineInverse (sBox x)

theorem sBoxAffine_byteInverse (x : Byte) : sBoxAffine (byteInverse x) = sBox x :=
  sBoxAffine_sBoxAffineInverse (sBox x)

theorem byteInverse_zero : byteInverse 0 = 0 := by decide

/-- The table's inverses are inverses, entry by entry. -/
theorem gmul_byteInverse : ∀ x : Byte, x ≠ 0 → gmul x (byteInverse x) = 1 := by decide +kernel

/-- Settles O28, with the inverse that the table has. -/
theorem sBoxTableIsTheConstruction : Obligations.SBoxTableIsTheConstruction :=
  ⟨by decide, fun x hx => ⟨byteInverse x, gmul_byteInverse x hx, (sBoxAffine_byteInverse x).symm⟩⟩

theorem byteInverse_ne_zero {x : Byte} (hx : x ≠ 0) : byteInverse x ≠ 0 := by
  intro h0
  have h := gmul_byteInverse x hx
  rw [h0, gmul_comm, zero_gmul] at h
  exact absurd h (by decide)

theorem byteInverse_involutive : Function.Involutive byteInverse := by
  intro x
  by_cases hx : x = 0
  · rw [hx, byteInverse_zero, byteInverse_zero]
  · calc byteInverse (byteInverse x)
        = gmul (gmul x (byteInverse x)) (byteInverse (byteInverse x)) := by
          rw [gmul_byteInverse x hx, one_gmul]
      _ = gmul x (gmul (byteInverse x) (byteInverse (byteInverse x))) := gmul_assoc _ _ _
      _ = x := by rw [gmul_byteInverse _ (byteInverse_ne_zero hx), gmul_comm, one_gmul]

theorem sBox_injective : Function.Injective sBox :=
  Function.Injective.of_comp (f := sBoxAffineInverse) byteInverse_involutive.injective

/-- Settles O29: the table's inverses are an involution, so no entry stands twice. -/
theorem sBoxIsAPermutationWithoutFixedPoint : Obligations.SBoxIsAPermutationWithoutFixedPoint :=
  ⟨Finite.injective_iff_bijective.mp sBox_injective, by decide +kernel, by decide, by decide, by decide,
    by decide, by decide⟩

/-! ## The transforms of a matrix -/

@[simp] theorem cell_subBytes (m : ByteMatrix) (r c : Fin 4) :
    cell (subBytes m) r c = sBox (cell m r c) := cell_matrixOf _ r c

@[simp] theorem cell_shiftRows (m : ByteMatrix) (r c : Fin 4) :
    cell (shiftRows m) r c = cell m r (c + r) := cell_matrixOf _ r c

@[simp] theorem cell_mixColumns (m : ByteMatrix) (r c : Fin 4) :
    cell (mixColumns m) r c =
      gmul (cell mixMatrix r 0) (cell m 0 c) ^^^ gmul (cell mixMatrix r 1) (cell m 1 c)
        ^^^ gmul (cell mixMatrix r 2) (cell m 2 c) ^^^ gmul (cell mixMatrix r 3) (cell m 3 c) :=
  cell_matrixOf _ r c

theorem cell_mixColumns_of_row {r : Fin 4} {a₀ a₁ a₂ a₃ : Byte}
    (h : mixMatrix.get r = #v[a₀, a₁, a₂, a₃]) (m : ByteMatrix) (c : Fin 4) :
    cell (mixColumns m) r c = gmul a₀ (cell m 0 c) ^^^ gmul a₁ (cell m 1 c)
      ^^^ gmul a₂ (cell m 2 c) ^^^ gmul a₃ (cell m 3 c) := by
  have hcell : ∀ i, cell mixMatrix r i = #v[a₀, a₁, a₂, a₃].get i := fun i => by rw [← h]; rfl
  rw [cell_mixColumns, hcell, hcell, hcell, hcell]
  rfl

@[simp] theorem cell_addRoundKey (m k : ByteMatrix) (r c : Fin 4) :
    cell (addRoundKey m k) r c = cell m r c ^^^ cell k r c := cell_matrixOf _ r c

/-- Four turns by `r` of a row of four are no turn (R146). -/
theorem shiftRows_four_times (m : ByteMatrix) :
    shiftRows (shiftRows (shiftRows (shiftRows m))) = m := by
  have hturn : ∀ r c : Fin 4, c + r + r + r + r = c := by decide
  exact matrix_ext fun r c => by simp [hturn]

theorem addRoundKey_addRoundKey (m k : ByteMatrix) : addRoundKey (addRoundKey m k) k = m :=
  matrix_ext fun r c => by simp

/-! ## The transform commands -/

/-- A command that writes `STATE` alone and completes keeps everything else (R140, R145, R150, R155). -/
theorem sameAllButWorkingState_of_write (s : State) (m : ByteMatrix) :
    SameAllButWorkingState s { s with state := m, errCode := .ok } :=
  ⟨⟨fun _ => rfl, rfl⟩, ⟨fun _ => rfl, rfl⟩, ⟨fun _ => rfl, rfl⟩, ⟨fun _ => rfl, rfl⟩, rfl, rfl⟩

theorem exec_shr (s : State) :
    exec .shr s = .next { s with state := shiftRows s.state, errCode := .ok } :=
  execShr_next.mpr rfl

theorem execAll_cons_of_next {i : Instr} {is : List Instr} {s t : State} (h : exec i s = .next t) :
    execAll (i :: is) s = execAll is t := by
  simp only [execAll, h]

theorem execAll_four_shr (s : State) : execAll [.shr, .shr, .shr, .shr] s = .next
    { s with state := shiftRows (shiftRows (shiftRows (shiftRows s.state))), errCode := .ok } := by
  iterate 4 rw [execAll_cons_of_next (exec_shr _)]
  rw [execAll]

/-- Settles O24, by the cells of ShiftRows and its period. -/
theorem shrRotatesTheRows : Obligations.ShrRotatesTheRows :=
  ⟨rfl, fun s => ⟨_, exec_shr s, cell_shiftRows s.state, ⟨rfl, rfl⟩, sameAllButWorkingState_of_write s _⟩,
    fun s => ⟨_, execAll_four_shr s, shiftRows_four_times s.state⟩⟩

theorem exec_ark_of_valid {k : BitVec 4} {s : State} {entry : Fin 11}
    (h : roundKeyOperand k = some entry) (hvalid : s.rkValid = true) : exec (.ark k) s =
      .next { s with state := addRoundKey s.state (s.rks.get entry), errCode := .ok } :=
  execArk_next.mpr (by rw [h]; exact (if_pos hvalid).symm)

theorem exec_ark_of_invalid {k : BitVec 4} {s : State} {entry : Fin 11}
    (h : roundKeyOperand k = some entry) (hvalid : s.rkValid = false) : exec (.ark k) s =
      .next { s with errCode := .rkInvalid, errSticky := true } :=
  execArk_next.mpr (by rw [h]; exact (if_neg (by simp [hvalid])).symm)

theorem exec_ark_of_none {k : BitVec 4} {s : State} (h : roundKeyOperand k = none) :
    exec (.ark k) s = .next { s with errCode := .indexRange, errSticky := true } :=
  execArk_next.mpr (by rw [h])

/-- Settles O26, by the range of the index and then the schedule's valid flag (R223). The first ARK leaves the
schedule, so the second adds the same round key. -/
theorem arkAddsTheRoundKeyOrReportsTheError : Obligations.ArkAddsTheRoundKeyOrReportsTheError := by
  intro k s
  refine ⟨(packWord_indices 0x33 k 0).trans (by simp [packWord]), fun hle hvalid => ?_,
    fun hle hvalid => ?_, fun hgt => ?_⟩
  · have hentry := roundKeyOperand_of_le hle
    exact ⟨_, exec_ark_of_valid hentry hvalid, cell_addRoundKey s.state _, ⟨rfl, rfl⟩,
      sameAllButWorkingState_of_write s _, _, exec_ark_of_valid hentry hvalid,
      addRoundKey_addRoundKey s.state _⟩
  · exact ⟨_, exec_ark_of_invalid (roundKeyOperand_of_le hle) hvalid, ⟨rfl, rfl⟩,
      sameAllButStatus_of_error s _⟩
  · exact ⟨_, exec_ark_of_none (roundKeyOperand_of_gt hgt), ⟨rfl, rfl⟩,
      sameAllButStatus_of_error s _⟩

/-- Settles O23, by the cells of SubBytes. -/
theorem subSubstitutesEachByte : Obligations.SubSubstitutesEachByte :=
  ⟨rfl, fun s => ⟨_, execSub_next.mpr rfl, cell_subBytes s.state, ⟨rfl, rfl⟩,
    sameAllButWorkingState_of_write s _⟩⟩

/-- Settles O25: each row's formula is the product's, where a factor 1 of the matrix leaves its cell. -/
theorem mixMultipliesEachColumn : Obligations.MixMultipliesEachColumn := by
  refine ⟨rfl, fun s => ⟨_, execMix_next.mpr rfl, fun c => ?_, fun c => ?_, fun c => ?_, fun c => ?_,
    ⟨rfl, rfl⟩, sameAllButWorkingState_of_write s _⟩⟩
  · have hrow := cell_mixColumns_of_row (show mixMatrix.get 0 = #v[2, 3, 1, 1] from rfl) s.state c
    simpa only [one_gmul] using hrow
  · have hrow := cell_mixColumns_of_row (show mixMatrix.get 1 = #v[1, 2, 3, 1] from rfl) s.state c
    simpa only [one_gmul] using hrow
  · have hrow := cell_mixColumns_of_row (show mixMatrix.get 2 = #v[1, 1, 2, 3] from rfl) s.state c
    simpa only [one_gmul] using hrow
  · have hrow := cell_mixColumns_of_row (show mixMatrix.get 3 = #v[3, 1, 1, 2] from rfl) s.state c
    simpa only [one_gmul] using hrow

/-! ## The lanes -/

/-- The lane that ShiftRows moves to lane `n`: the same row, the column further on by the row (R146, R157). -/
def shiftRowsLanes : Equiv.Perm (Fin 16) where
  toFun n := byteIndexOf (rowOf n) (colOf n + rowOf n)
  invFun n := byteIndexOf (rowOf n) (colOf n - rowOf n)
  left_inv n := by simp
  right_inv n := by simp

theorem matrixByte_shiftRows (m : ByteMatrix) (n : Fin 16) :
    matrixByte (shiftRows m) n = matrixByte m (shiftRowsLanes n) := by
  simp [matrixByte, shiftRowsLanes]

/-- Settles O27, by the cells of each transform. -/
theorem transformsActLaneByLane : Obligations.TransformsActLaneByLane := by
  refine ⟨fun m m' n h => ?_, fun m m' k k' n hm hk => ?_, ⟨shiftRowsLanes, matrixByte_shiftRows⟩,
    fun m m' c h r => ?_⟩
  · simpa [matrixByte] using congrArg sBox h
  · simpa [matrixByte] using congrArg₂ (· ^^^ ·) hm hk
  · simp only [matrixByte_byteIndexOf] at h
    simp [h]

end Sys2Proof.Machine

/-! The statements of spec/42_key_schedule.md: the round constants, the word functions, the recurrence of the expanded
key, and EXPAND. -/

namespace Sys2Proof.Machine

/-! ## The round constants and the word functions -/

/-- Settles O32, entry by entry: each entry from the second on is the double of the one before. -/
theorem roundConstantsAreDoublings : Obligations.RoundConstantsAreDoublings := by
  refine ⟨rfl, fun i => ?_⟩
  have hdouble : ∀ i : Fin 9, rcon i.succ.succ = xtime (rcon i.castSucc.succ) := by decide
  induction i using Fin.induction with
  | zero => rfl
  | succ i ih => rw [hdouble, ih, Fin.val_succ, Function.iterate_succ_apply', Fin.val_castSucc]

/-- RotWord is the rotation left by 8 bits (R173). -/
theorem rotWord_eq_or (t : Word) : rotWord t = (t <<< 8) ||| (t >>> 24) := by
  apply BitVec.eq_of_getLsbD_eq
  intro i hi
  have hhigh := BitVec.getLsbD_of_ge t (24 + i)
  rw [rotWord, getLsbD_packBytes, BitVec.getLsbD_or, BitVec.getLsbD_shiftLeft,
    BitVec.getLsbD_ushiftRight]
  split_ifs <;> rw [getLsbD_wordByte _ _ (by omega)] <;> grind

theorem rotWord_packBytes (t0 t1 t2 t3 : Byte) :
    rotWord (packBytes t0 t1 t2 t3) = packBytes t1 t2 t3 t0 := by
  simp only [rotWord, wordByte_packBytes]
  rfl

theorem subWord_packBytes (t0 t1 t2 t3 : Byte) :
    subWord (packBytes t0 t1 t2 t3) = packBytes (sBox t0) (sBox t1) (sBox t2) (sBox t3) := by
  simp only [subWord, wordByte_packBytes]
  rfl

/-- Settles O33. -/
theorem wordFunctionsActOnBytes : Obligations.WordFunctionsActOnBytes :=
  ⟨rotWord_eq_or, fun t0 t1 t2 t3 => ⟨rotWord_packBytes t0 t1 t2 t3, subWord_packBytes t0 t1 t2 t3⟩⟩

/-! ## The recurrence -/

/-- The right side of the recurrence of R174 for word `i`, in the words `ws`. -/
def recurrenceWord (ws : List Word) (i : Nat) : Word :=
  scheduleWord ws (i - 4) ^^^ scheduleTemp i (scheduleWord ws (i - 1))

theorem scheduleWord_appendWord_length (ws : List Word) (i : Nat) :
    scheduleWord (appendWord ws i) ws.length = recurrenceWord ws i := by
  simp [scheduleWord, appendWord, recurrenceWord]

/-- Later words leave the recurrence of an earlier one alone, because it asks for earlier words only. -/
theorem recurrenceWord_foldl (is : List Nat) {ws : List Word} (hws : 0 < ws.length) {i : Nat}
    (hi : i ≤ ws.length) : recurrenceWord (is.foldl appendWord ws) i = recurrenceWord ws i := by
  rw [recurrenceWord, scheduleWord_foldl is ws (by omega), scheduleWord_foldl is ws (by omega),
    recurrenceWord]

/-- Every word that the loop of R174 makes meets the recurrence in the words it leaves at its end. -/
theorem scheduleWord_loop {ws : List Word} (hws : 0 < ws.length) (n : Nat) {i : Nat}
    (hle : ws.length ≤ i) (hlt : i < ws.length + n) :
    scheduleWord ((List.range' ws.length n).foldl appendWord ws) i
      = recurrenceWord ((List.range' ws.length n).foldl appendWord ws) i := by
  induction n generalizing ws with
  | zero => omega
  | succ n ih =>
    obtain rfl | hgt := hle.eq_or_lt
    · rw [recurrenceWord_foldl _ hws le_rfl, List.range'_succ, List.foldl_cons,
        scheduleWord_foldl _ _ (by simp), scheduleWord_appendWord_length]
    · rw [List.range'_succ, List.foldl_cons, ← appendWord_length ws ws.length]
      exact ih (by simp) (by simpa using hgt) (by simp; omega)

/-- The words of the expansion meet the recurrence of R174. -/
theorem scheduleWord_keyWords (key : ByteMatrix) {i : Nat} (hle : 4 ≤ i) (hlt : i < 44) :
    scheduleWord (keyWords key) i = recurrenceWord (keyWords key) i :=
  scheduleWord_loop (ws := firstWords key) (by simp [firstWords]) 40 hle hlt

/-! ## The words as columns of the round keys -/

/-- A column of a grouped round key is its word (R175). -/
theorem columnWord_groupRoundKeys (ws : List Word) (k : Fin 11) (j : Fin 4) :
    columnWord ((groupRoundKeys ws).get k) j = scheduleWord ws (4 * k.val + j.val) := by
  have hcell : ∀ r, cell ((groupRoundKeys ws).get k) r j
      = wordByte (scheduleWord ws (4 * k.val + j.val)) r := fun r => by simp [groupRoundKeys]
  rw [columnWord, hcell, hcell, hcell, hcell, packBytes_wordByte]

/-- The first four words are the key's columns (R174), because they are the columns of round key 0. -/
theorem scheduleWord_keyWords_first (key : ByteMatrix) (j : Fin 4) :
    scheduleWord (keyWords key) j.val = columnWord key j := by
  have hcol := columnWord_groupRoundKeys (keyWords key) 0 j
  rw [← expandKey, expandKey_get_zero] at hcol
  simpa using hcol.symm

/-- Word `i` as R175 places it in the expanded key: column `i mod 4` of round key `i div 4`. -/
def expandedWord (key : ByteMatrix) (i : Nat) : Word :=
  match (expandKey key)[i / 4]? with
  | some rk => columnWord rk ⟨i % 4, by omega⟩
  | none => 0

theorem expandedWord_eq (key : ByteMatrix) {i : Nat} (hi : i < 44) :
    expandedWord key i = scheduleWord (keyWords key) i := by
  have hk : i / 4 < 11 := by omega
  have hcol := columnWord_groupRoundKeys (keyWords key) ⟨i / 4, hk⟩ ⟨i % 4, by omega⟩
  rw [Nat.div_add_mod] at hcol
  rw [expandedWord, Vector.getElem?_eq_getElem hk]
  exact hcol

/-- Settles O34: the columns are the loop's words, and those meet the recurrence. -/
theorem expandedKeyMeetsTheRecurrence : Obligations.ExpandedKeyMeetsTheRecurrence := by
  intro key
  change (∀ j : Fin 4, expandedWord key j.val = columnWord key j)
    ∧ ∀ i, 4 ≤ i → i < 44 →
      expandedWord key i = expandedWord key (i - 4) ^^^ scheduleTemp i (expandedWord key (i - 1))
  refine ⟨fun j => ?_, fun i hle hlt => ?_⟩
  · rw [expandedWord_eq key (by omega), scheduleWord_keyWords_first]
  · rw [expandedWord_eq key hlt, expandedWord_eq key (by omega), expandedWord_eq key (by omega),
      scheduleWord_keyWords key hle hlt, recurrenceWord]

/-! ## EXPAND -/

theorem exec_expand_of_full {s : State} (hkey : s.keyCnt = 16) : exec .expand s = .next
    { s with keyCnt := 0, rks := expandKey (toMatrix s.keyb), rkValid := true, errCode := .ok } :=
  execExpand_next.mpr (if_pos hkey).symm

theorem exec_expand_of_not_full {s : State} (hkey : s.keyCnt ≠ 16) : exec .expand s = .next
    { s with keyCnt := 0, rkValid := false, errCode := .inputLength, errSticky := true } :=
  execExpand_next.mpr (if_neg hkey).symm

/-- Settles O36, by the two cases of EXPAND. -/
theorem expandWritesTheSchedule : Obligations.ExpandWritesTheSchedule := by
  refine ⟨rfl, fun s hkey => ?_, fun s hkey => ?_⟩
  · exact ⟨_, exec_expand_of_full hkey, rfl, rfl, rfl, ⟨rfl, rfl⟩, fun _ => rfl,
      ⟨fun _ => rfl, rfl⟩, fun _ => rfl, ⟨fun _ => rfl, rfl⟩, rfl, rfl⟩
  · exact ⟨_, exec_expand_of_not_full hkey, rfl, rfl, fun _ => rfl, ⟨rfl, rfl⟩, fun _ => rfl,
      ⟨fun _ => rfl, rfl⟩, fun _ => rfl, ⟨fun _ => rfl, rfl⟩, rfl, rfl⟩

/-- Settles O35: EXPAND makes the schedule valid, so the read gives the byte of round key 0, which is the key. -/
theorem roundKeyZeroIsTheKey : Obligations.RoundKeyZeroIsTheKey := by
  refine ⟨expandKey_get_zero, fun s b hkey => ⟨_, _, exec_expand_of_full hkey,
    exec_rdRk_of_valid (roundKeyOperand_of_le (by decide)) rfl, ?_⟩⟩
  have hbyte : matrixByte ((expandKey (toMatrix s.keyb)).get 0) (byteOperand b)
      = s.keyb.get (byteOperand b) := by
    rw [expandKey_get_zero, matrixByte_toMatrix]
  exact (memRead_keyb_fin s (byteOperand b)).trans (congrArg some hbyte.symm)

/-- Settles O37: equal bytes are an equal key buffer, and EXPAND writes a function of that buffer. -/
theorem expansionDependsOnTheKeyAlone : Obligations.ExpansionDependsOnTheKeyAlone := by
  intro s s' t t' hkey hkey' hbytes ht ht'
  have hkeyb : s.keyb = s'.keyb := block_ext hbytes
  obtain rfl := Host.Outcome.next.inj ((exec_expand_of_full hkey).symm.trans ht)
  obtain rfl := Host.Outcome.next.inj ((exec_expand_of_full hkey').symm.trans ht')
  simp [memRead, hkeyb]

end Sys2Proof.Machine

/-! The statements of spec/43_pipeline.md: CLR, RUN and the encryption sequence it records, the known answer, and the
single-transform commands that do what RUN does. -/

namespace Sys2Proof.Machine

/-! ## CLR -/

/-- Settles O11: CLR writes the registers a reset event writes, and its `ERR_CODE` is the reset value already. -/
theorem clrLeavesTheResetState : Obligations.ClrLeavesTheResetState := by
  have hzero : ∀ r c : Fin 4, cell zeroMatrix r c = 0 := by decide
  refine ⟨rfl, fun s => ⟨_, resetRegisters s, execClr_next.mpr rfl, rfl, ?_, rfl, rfl, hzero, rfl, rfl,
    rfl, rfl, rfl, statusWord_reset, rfl⟩⟩
  exact ⟨rfl, rfl, rfl, rfl, rfl, rfl, rfl, rfl, rfl, fun _ _ => rfl, fun _ _ => rfl, fun _ => rfl,
    fun _ _ => rfl⟩

/-! ## RUN -/

theorem exec_run_of_full {s : State} (hpt : s.ptCnt = 16) (hkey : s.keyCnt = 16) :
    exec .run s = .next
      { s with ptCnt := 0, keyCnt := 0,
               state := (encrypt (toMatrix s.ptb) (toMatrix s.keyb)).st,
               rks := (encrypt (toMatrix s.ptb) (toMatrix s.keyb)).rk, rkValid := true,
               snb := (encrypt (toMatrix s.ptb) (toMatrix s.keyb)).snaps, snapCnt := 11,
               errCode := .ok } :=
  execRun_next.mpr (if_pos ⟨hpt, hkey⟩).symm

theorem exec_run_of_not_full {s : State} (h : s.ptCnt ≠ 16 ∨ s.keyCnt ≠ 16) :
    exec .run s = .next { s with ptCnt := 0, keyCnt := 0, snapCnt := 0, rkValid := false,
                                 errCode := .inputLength, errSticky := true } :=
  execRun_next.mpr (if_neg (not_and_or.mpr h)).symm

/-- Settles O38, by the two cases of RUN. -/
theorem runEncryptsOrReportsTheLength : Obligations.RunEncryptsOrReportsTheLength := by
  refine ⟨rfl, fun s hpt hkey => ?_, fun s hbad => ?_⟩
  · refine ⟨_, exec_run_of_full hpt hkey, ?_⟩
    generalize encrypt (toMatrix s.ptb) (toMatrix s.keyb) = result
    exact ⟨rfl, rfl, rfl, rfl, rfl, rfl, rfl, ⟨rfl, rfl⟩, fun _ => rfl, fun _ => rfl, rfl, rfl⟩
  · exact ⟨_, exec_run_of_not_full hbad, rfl, rfl, rfl, rfl, fun _ => rfl, fun _ => rfl, fun _ => rfl,
      ⟨rfl, rfl⟩, fun _ => rfl, fun _ => rfl, rfl, rfl⟩

/-- Settles O43: a RUN that ends without an error writes a function of the two input buffers. -/
theorem runForgetsThePast : Obligations.RunForgetsThePast := by
  intro s s' t t' hptb hkeyb ht ht' hok hok'
  have hptb : s.ptb = s'.ptb := block_ext hptb
  have hkeyb : s.keyb = s'.keyb := block_ext hkeyb
  cases completesTo_of_errCode ht hok with
  | run _ _ =>
    cases completesTo_of_errCode ht' hok' with
    | run _ _ => rw [hptb, hkeyb]; exact ⟨rfl, rfl, rfl, rfl, rfl⟩

/-! ## The encryption sequence -/

/-- Eleven snapshots fill the store in their order (R190). -/
theorem snapshotStore_eleven (m₀ m₁ m₂ m₃ m₄ m₅ m₆ m₇ m₈ m₉ m₁₀ : ByteMatrix) :
    snapshotStore [m₀, m₁, m₂, m₃, m₄, m₅, m₆, m₇, m₈, m₉, m₁₀]
      = #v[m₀, m₁, m₂, m₃, m₄, m₅, m₆, m₇, m₈, m₉, m₁₀] := rfl

/-- What a RUN computes, with the eleven entries of the snapshot store written out (R191, R195). -/
theorem encrypt_eq (p key : ByteMatrix) :
    encrypt p key =
      let rk := expandKey key
      let first := addRoundKey p (rk.get 0)
      let last := stateBeforeLastRound p rk
      ⟨ciphertextOf p rk, rk,
        #v[p, first, subBytes first, shiftRows (subBytes first), mixColumns (shiftRows (subBytes first)),
          fullRound rk first 1, last, subBytes last, shiftRows (subBytes last),
          ciphertextOf p rk, ciphertextOf p rk]⟩ := by
  simp only [encrypt, encryptTrace_eq, snapshotStore_eleven]

/-- Settles O40: the entries of the snapshot store are those of the sequence's list, in which each is the transform
of the one before. -/
theorem encryptionFollowsTheSequence : Obligations.EncryptionFollowsTheSequence := by
  intro p key
  rw [encrypt_eq]
  generalize expandKey key = rk
  exact ⟨rfl, rfl, rfl, rfl, rfl, rfl, rfl, rfl, rfl, rfl, rfl, rfl, rfl⟩

/-- Settles O41: the list of the whole sequence has eleven entries, and a successful RUN writes their count. -/
theorem runRecordsElevenSnapshots : Obligations.RunRecordsElevenSnapshots :=
  ⟨fun p rk => by rw [encryptTrace_eq]; rfl, fun _ _ h => (execRun_snapCnt h).1⟩

/-! ## The known answer -/

/-- All places where a host finds the ciphertext after a RUN hold the matrix `m` (R110). -/
structure ShowsCiphertext (m : ByteMatrix) (s : State) : Prop where
  state : s.state = m
  snapCnt : s.snapCnt = 11
  snapshotNine : s.snb.get 9 = m
  snapshotTen : s.snb.get 10 = m

namespace ShowsCiphertext

variable {m : ByteMatrix} {s t : State}

theorem of_run (hpt : s.ptCnt = 16) (hkey : s.keyCnt = 16) (h : exec .run s = .next t) :
    ShowsCiphertext (encrypt (toMatrix s.ptb) (toMatrix s.keyb)).st t := by
  obtain rfl := Host.Outcome.next.inj ((exec_run_of_full hpt hkey).symm.trans h)
  have hnine := encrypt_snaps_nine (toMatrix s.ptb) (toMatrix s.keyb)
  have hten := encrypt_snaps_ten (toMatrix s.ptb) (toMatrix s.keyb)
  generalize encrypt (toMatrix s.ptb) (toMatrix s.keyb) = result at hnine hten ⊢
  exact ⟨rfl, rfl, hnine, hten⟩

/-- Reading STATE gives the ciphertext's byte and keeps the ciphertext where it is (R108). -/
theorem rdState (hs : ShowsCiphertext m s) {b : BitVec 4} (h : exec (.rdState b) s = .next t) :
    ShowsCiphertext m t ∧ t.rdata = (toBuffer m).get (byteOperand b) := by
  obtain rfl := execRdState_next.mp h
  obtain ⟨hstate, hcnt, h9, h10⟩ := hs
  exact ⟨⟨hstate, hcnt, h9, h10⟩, by simp [hstate]⟩

/-- Reading snapshot 9 or 10 gives the ciphertext's byte and keeps the ciphertext where it is (R111). -/
theorem rdSnap (hs : ShowsCiphertext m s) {n b : BitVec 4} (hn : n = 9 ∨ n = 10)
    (h : exec (.rdSnap n b) s = .next t) :
    ShowsCiphertext m t ∧ t.rdata = (toBuffer m).get (byteOperand b) := by
  obtain ⟨hstate, hcnt, h9, h10⟩ := hs
  have hentry : ∃ entry, snapshotOperand n s.snapCnt = some entry ∧ s.snb.get entry = m := by
    rw [hcnt]
    obtain rfl | rfl := hn
    · exact ⟨9, rfl, h9⟩
    · exact ⟨10, rfl, h10⟩
  obtain ⟨entry, hsome, hbyte⟩ := hentry
  obtain rfl := Host.Outcome.next.inj ((exec_rdSnap_of_some hsome).symm.trans h)
  exact ⟨⟨hstate, hcnt, h9, h10⟩, by simp [hbyte]⟩

end ShowsCiphertext

/-- A program that begins with the sixteen reads of a block samples the block's bytes in order, and goes on where
the reads' invariant still holds (R82). -/
theorem runProgram_readout {read : BitVec 4 → Instr} {P : State → Prop} {block : Block}
    (hread : ∀ b s t, P s → exec (read b) s = .next t → P t ∧ t.rdata = block.get (byteOperand b))
    {ws : List Word} {s : State} {r : ProgramRun} (hs : P s)
    (h : runProgram ((byteIndices.map read).map encode ++ ws) s = .next r) :
    ∃ u r', P u ∧ runProgram ws u = .next r'
      ∧ r.seen.map (·.rdata) = block.toList ++ r'.seen.map (·.rdata) := by
  obtain ⟨r₁, r₂, h₁, h₂, -, hseen⟩ := runProgram_append_next h
  have hkeeps : ∀ w ∈ (byteIndices.map read).map encode, ∀ s t, acceptWord w s = .next t → P s → P t := by
    intro w hw s t ht hs
    simp only [List.map_map, List.mem_map, Function.comp_apply] at hw
    obtain ⟨b, -, rfl⟩ := hw
    rw [acceptWord_encode] at ht
    exact (hread b s t hs ht).1
  refine ⟨_, r₂, runProgram_keeps hkeeps h₁ hs, h₂, ?_⟩
  rw [hseen, List.map_append, runProgram_reads hread hs h₁, byteIndices_map_get]

/-- READ_STATE, READ_SNAP 9 and READ_SNAP 10 each sample the ciphertext's bytes in order (R110). -/
theorem runProgram_reads_ciphertext {m : ByteMatrix} {s : State} {r : ProgramRun}
    (hs : ShowsCiphertext m s)
    (h : runProgram ((lineCommands .readState).map encode ++ ((lineCommands (.readSnap 9)).map encode
      ++ (lineCommands (.readSnap 10)).map encode)) s = .next r) :
    r.seen.map (·.rdata) = (toBuffer m).toList ++ (toBuffer m).toList ++ (toBuffer m).toList := by
  obtain ⟨u, r₁, hu, h₁, hseen⟩ := runProgram_readout (fun _ _ _ hs ht => hs.rdState ht) hs h
  obtain ⟨v, r₂, hv, h₂, hseen₁⟩ :=
    runProgram_readout (fun _ _ _ hs ht => hs.rdSnap (.inl rfl) ht) hu h₁
  have hseen₂ := runProgram_reads (fun _ _ _ hs ht => hs.rdSnap (.inr rfl) ht) hv h₂
  rw [hseen, hseen₁, hseen₂, byteIndices_map_get, List.append_assoc]

/-- The plaintext of the known-answer requirement (R201). -/
def knownPlaintext : Block :=
  #v[0x00, 0x11, 0x22, 0x33, 0x44, 0x55, 0x66, 0x77, 0x88, 0x99, 0xaa, 0xbb, 0xcc, 0xdd, 0xee, 0xff]

/-- The key of the known-answer requirement (R201). -/
def knownKey : Block :=
  #v[0x00, 0x01, 0x02, 0x03, 0x04, 0x05, 0x06, 0x07, 0x08, 0x09, 0x0a, 0x0b, 0x0c, 0x0d, 0x0e, 0x0f]

/-- The ciphertext of the known-answer requirement (R201). -/
def knownCiphertext : Block :=
  #v[0x69, 0xc4, 0xe0, 0xd8, 0x6a, 0x7b, 0x04, 0x30, 0xd8, 0xcd, 0xb7, 0x80, 0x70, 0xb4, 0xc5, 0x5a]

theorem encrypt_known_answer :
    toBuffer (encrypt (toMatrix knownPlaintext) (toMatrix knownKey)).st = knownCiphertext := by
  decide +kernel

/-- Settles O39: RUN leaves the known ciphertext in STATE and in snapshots 9 and 10, and the reads sample these. -/
theorem knownAnswerCiphertext : Obligations.KnownAnswerCiphertext := by
  intro s hpt hkey hptb hkeyb
  have hptb : s.ptb = knownPlaintext := Vector.toList_inj.mp hptb
  have hkeyb : s.keyb = knownKey := Vector.toList_inj.mp hkeyb
  obtain ⟨r, hr⟩ := runProgram_completes (([Instr.run] ++ lineCommands .readState
    ++ lineCommands (.readSnap 9) ++ lineCommands (.readSnap 10)).map encode) s
  refine ⟨r, hr, ?_⟩
  simp only [List.append_assoc, List.singleton_append, List.map_cons, List.map_append] at hr
  obtain ⟨t, r', ht, hreads, -, hseen⟩ := runProgram_cons_next hr
  rw [acceptWord_encode] at ht
  have hshows := ShowsCiphertext.of_run hpt hkey ht
  have hsamples := runProgram_reads_ciphertext hshows hreads
  rw [hptb, hkeyb, encrypt_known_answer] at hsamples
  rw [hseen]
  exact hsamples

/-! ## The single-transform commands -/

/-- A command that transforms the working state, with a round key that exists (R140, R145, R150, R155). -/
inductive Transform where
  | sub
  | shr
  | mix
  | ark (k : Fin 11)

/-- The command of a transform. -/
def Transform.command : Transform → Instr
  | .sub => .sub
  | .shr => .shr
  | .mix => .mix
  | .ark k => .ark (indexField k.val)

/-- What a transform does to the working state under an expanded key. -/
def Transform.apply (rk : MatrixStore) (m : ByteMatrix) : Transform → ByteMatrix
  | .sub => subBytes m
  | .shr => shiftRows m
  | .mix => mixColumns m
  | .ark k => addRoundKey m (rk.get k)

theorem roundKeyOperand_indexField (k : Fin 11) : roundKeyOperand (indexField k.val) = some k := by
  revert k; decide

/-- With a valid schedule a transform's command completes and writes STATE alone. -/
theorem exec_transform (x : Transform) {s : State} (hvalid : s.rkValid = true) :
    exec x.command s = .next { s with state := x.apply s.rks s.state, errCode := .ok } := by
  cases x with
  | sub => exact execSub_next.mpr rfl
  | shr => exact exec_shr s
  | mix => exact execMix_next.mpr rfl
  | ark k => exact exec_ark_of_valid (roundKeyOperand_indexField k) hvalid

/-- A list of transforms composes their effects on STATE and keeps all else. -/
theorem execAll_transforms (xs : List Transform) {s : State} (hvalid : s.rkValid = true)
    (hok : s.errCode = .ok) : execAll (xs.map Transform.command) s =
      .next { s with state := xs.foldl (Transform.apply s.rks) s.state, errCode := .ok } := by
  induction xs generalizing s with
  | nil => rw [← hok]; rfl
  | cons x xs ih => exact (execAll_cons_of_next (exec_transform x hvalid)).trans (ih hvalid rfl)

/-- The transforms of R202, after LDST and EXPAND. -/
def stepTransforms : List Transform :=
  .ark 0 :: (middleRounds.flatMap fun k => [.sub, .shr, .mix, .ark k]) ++ [.sub, .shr, .ark 10]

theorem singleStepCommands_eq :
    singleStepCommands = .ldst :: .expand :: stepTransforms.map Transform.command := rfl

theorem exec_ldst_of_full {s : State} (hpt : s.ptCnt = 16) : exec .ldst s =
    .next { s with ptCnt := 0, state := toMatrix s.ptb, errCode := .ok } :=
  execLdst_next.mpr (if_pos hpt).symm

/-- LDST, EXPAND and any transforms after them leave the transformed plaintext in STATE, the schedule of the key, and
the snapshots as they were. -/
theorem execAll_load_transforms {s : State} (hpt : s.ptCnt = 16) (hkey : s.keyCnt = 16)
    (xs : List Transform) :
    execAll (.ldst :: .expand :: xs.map Transform.command) s = .next
      { s with ptCnt := 0, keyCnt := 0, rks := expandKey (toMatrix s.keyb), rkValid := true,
               state := xs.foldl (Transform.apply (expandKey (toMatrix s.keyb))) (toMatrix s.ptb),
               errCode := .ok } := by
  rw [execAll_cons_of_next (exec_ldst_of_full hpt),
    execAll_cons_of_next (exec_expand_of_full (by exact hkey)), execAll_transforms xs rfl rfl]

/-- How many transforms have run at the point of R195 that snapshot `i` names: LDST and EXPAND are none, and at
snapshot 0 EXPAND has not run yet. -/
def transformsBefore (i : Fin 11) : Nat := singleStepsBefore.get i - 2

/-- The state that the transforms pass at each point of R195 is the snapshot of that point: both are the same
composition of transforms of the plaintext. -/
theorem foldl_transforms_eq_snapshot (p key : ByteMatrix) (i : Fin 11) :
    (stepTransforms.take (transformsBefore i)).foldl (Transform.apply (expandKey key)) p
      = (encrypt p key).snaps.get i := by
  rw [encrypt_eq]
  generalize expandKey key = rk
  fin_cases i <;> rfl

/-- The commands of R202 up to the point of snapshot `i` leave that snapshot in STATE. -/
theorem execAll_singleSteps_take {s : State} (hpt : s.ptCnt = 16) (hkey : s.keyCnt = 16) (i : Fin 11) :
    ∃ c, execAll (singleStepCommands.take (singleStepsBefore.get i)) s = .next c
      ∧ c.state = (encrypt (toMatrix s.ptb) (toMatrix s.keyb)).snaps.get i := by
  rw [← foldl_transforms_eq_snapshot]
  obtain rfl | hi := eq_or_ne i 0
  · exact ⟨_, execAll_cons_of_next (exec_ldst_of_full hpt), rfl⟩
  · have hsteps : ∀ i : Fin 11, i ≠ 0 → singleStepsBefore.get i = transformsBefore i + 2 := by decide
    rw [hsteps i hi, singleStepCommands_eq, List.take_succ_cons, List.take_succ_cons, ← List.map_take,
      execAll_load_transforms hpt hkey]
    exact ⟨_, rfl, rfl⟩

/-- Settles O44: after LDST and EXPAND each command transforms STATE alone, and the states it passes are the
snapshots. The last one is the ciphertext. -/
theorem singleStepsDoWhatRunDoes : Obligations.SingleStepsDoWhatRunDoes := by
  intro s hpt hkey
  have hstate := (foldl_transforms_eq_snapshot (toMatrix s.ptb) (toMatrix s.keyb) 9).trans
    (encrypt_snaps_nine (toMatrix s.ptb) (toMatrix s.keyb))
  have hsnaps := execAll_singleSteps_take hpt hkey
  have hrk : expandKey (toMatrix s.keyb) = (encrypt (toMatrix s.ptb) (toMatrix s.keyb)).rk := rfl
  refine ⟨_, _, execAll_load_transforms hpt hkey stepTransforms, exec_run_of_full hpt hkey, ?_⟩
  generalize encrypt (toMatrix s.ptb) (toMatrix s.keyb) = result at hstate hsnaps hrk ⊢
  exact ⟨hstate, hrk, rfl, ⟨fun _ => rfl, rfl⟩, hsnaps⟩

end Sys2Proof.Machine

/-! The statements of spec/60_exceptions.md: an idle core keeps its state, and a reset aborts the command in
progress. -/

namespace Sys2Proof.Machine

/-! ## An idle core -/

/-- Settles O8, by the step of a state whose host offers nothing. -/
theorem idleCoreKeepsItsState : Obligations.IdleCoreKeepsItsState :=
  fun s hidle => step_of_host_nil s hidle

/-! ## Reset at the port -/

/-- An edge with `rst_n` low resets the core and ends what is in progress (R230, R251, log entry 13). -/
theorem edge_of_reset {pin : PortIn} (hrst : pin.rstN = false) (p : PortCore) :
    edge pin p = .next ⟨resetRegisters p.core, none⟩ := by
  have hevent : edgeEvent p pin = some .reset := by simp [edgeEvent, hrst]
  have hbusy : edgeBusy p pin = none := by simp [edgeBusy, hrst]
  have hreset : hostEvent .reset p.core = .next (resetRegisters p.core) := rfl
  rw [edge_of_event hevent hreset, hbusy]

/-- Settles O56: what a reset edge leaves is a function of the core alone. -/
theorem resetAbortsTheCommandInProgress : Obligations.ResetAbortsTheCommandInProgress := by
  intro p p' pin hrst hcore
  refine ⟨_, edge_of_reset hrst p, ?_, rfl, rfl⟩
  rw [edge_of_reset hrst p', hcore]

end Sys2Proof.Machine

/-! The statements of spec/70_reset_and_hazards.md: an over-supplied count stays, and what a reset edge leaves. -/

namespace Sys2Proof.Machine

/-! ## Over-supply -/

/-- What each command of a list keeps, the list keeps. -/
theorem execAll_keeps {P : State → Prop} {is : List Instr}
    (hcmd : ∀ i ∈ is, ∀ s t, exec i s = .next t → P s → P t) {s t : State}
    (h : execAll is s = .next t) (hs : P s) : P t := by
  induction is generalizing s with
  | nil => obtain rfl := Host.Outcome.next.inj h; exact hs
  | cons i is ih =>
    obtain ⟨hi, his⟩ := List.forall_mem_cons.mp hcmd
    obtain ⟨r, hr, hrest⟩ := execAll_cons_next h
    exact ih his hrest (hi s r hr hs)

/-- A push to an over-supplied buffer leaves its count at 17 (R24). -/
theorem pushByte_count_saturated (buf : Block) (d : Byte) : (pushByte buf 17 d).2 = 17 := by
  rw [pushByte_of_ge d (by decide)]

/-- Only CLR and a consumer of the plaintext take `PT_CNT` away from 17: a push keeps it, and no other command
writes it (R24, R261). -/
theorem exec_keeps_ptCnt_saturated {i : Instr} {s t : State} (h : exec i s = .next t)
    (hi : i ∉ [.clr, .run, .ldst]) (hs : s.ptCnt = 17) : t.ptCnt = 17 := by
  by_cases hpush : ∃ d, i = .ptPush d
  · obtain ⟨d, rfl⟩ := hpush
    obtain rfl := execPtPush_next.mp h
    simp only [hs, pushByte_count_saturated]
  · rw [exec_ptCnt h (not_exists.mp hpush) hi, hs]

/-- Only CLR and a consumer of the key take `KEY_CNT` away from 17 (R24, R261). -/
theorem exec_keeps_keyCnt_saturated {i : Instr} {s t : State} (h : exec i s = .next t)
    (hi : i ∉ [.clr, .run, .expand]) (hs : s.keyCnt = 17) : t.keyCnt = 17 := by
  by_cases hpush : ∃ d, i = .keyPush d
  · obtain ⟨d, rfl⟩ := hpush
    obtain rfl := execKeyPush_next.mp h
    simp only [hs, pushByte_count_saturated]
  · rw [exec_keyCnt h (not_exists.mp hpush) hi, hs]

/-- A command of a list without three commands is none of the three. -/
theorem not_mem_three_of_mem {is : List Instr} {a b c : Instr} (ha : a ∉ is) (hb : b ∉ is)
    (hc : c ∉ is) {i : Instr} (hi : i ∈ is) : i ∉ [a, b, c] := by
  simp [ne_of_mem_of_not_mem hi ha, ne_of_mem_of_not_mem hi hb, ne_of_mem_of_not_mem hi hc]

/-- Settles O15: every command of the list keeps a count of 17, so the list does. -/
theorem overSupplyStaysUntilConsumedOrCleared :
    Obligations.OverSupplyStaysUntilConsumedOrCleared := by
  intro is s t h hclr hrun
  constructor
  · intro hs hldst
    exact execAll_keeps (P := fun u => u.ptCnt = 17)
      (fun i hi _ _ ht => exec_keeps_ptCnt_saturated ht (not_mem_three_of_mem hclr hrun hldst hi)) h hs
  · intro hs hexpand
    exact execAll_keeps (P := fun u => u.keyCnt = 17)
      (fun i hi _ _ ht => exec_keeps_keyCnt_saturated ht (not_mem_three_of_mem hclr hrun hexpand hi))
      h hs

/-! ## Reset -/

/-- While `rst_n` is 0 the core is not ready (R250). -/
theorem cmdReady_of_reset (p : PortCore) : cmdReady p false = false := rfl

/-- A reset event leaves the outputs of the reset state, whatever the host's list is (R250). -/
theorem observe_resetRegisters (s : State) : observe (resetRegisters s) = ⟨0x00000000, 0x00⟩ :=
  congrArg (Observation.mk · 0x00) statusWord_reset

/-- Settles O9: a reset edge leaves the core idle with its registers reset, whatever was in progress. -/
theorem resetLeavesTheResetValues : Obligations.ResetLeavesTheResetValues := by
  intro p pin hrst
  have hready : cmdReady p pin.rstN = false := hrst ▸ cmdReady_of_reset p
  have hzero : ∀ r c : Fin 4, cell zeroMatrix r c = 0 := by decide
  refine ⟨hready, by simp [acceptsAt, hready], _, edge_of_reset hrst p, rfl, rfl, hzero, rfl, rfl, rfl,
    rfl, rfl, ?_, rfl⟩
  exact congrArg some (observe_resetRegisters p.core)

end Sys2Proof.Machine
